-- ==== Sys2Proof/Word.lean ====
section
/-!
DEFINITION. The bit strings of the machine (00_scope.md R4, R6, R14).
Slices in this package number bits least-significant-bit-zero, as Lean's BitVec does and as R14
does; the source's numbering, bit 0 the most significant, appears only through named accessors.
-/

namespace Sys2Proof

/-- A byte of the instruction text, when the text is kept as bytes (20_memory.md R43). -/
abbrev Byte := BitVec 8

/-- A half-word element: 16 bits (R4). -/
abbrev HalfWord := BitVec 16

/-- A word element: 32 bits (R4). -/
abbrev Word := BitVec 32

/-- The contents of a vector register: 128 bits (R4, 10_state.md R20). -/
abbrev V128 := BitVec 128

/-- An instruction word: 32 bits (R4, 30_encoding.md R60). -/
abbrev InstrWord := BitVec 32

/-- The number of a vector register as a 5-bit instruction field holds it: 0 to 31, every value
legal (30_encoding.md R65). -/
abbrev VReg := BitVec 5

end Sys2Proof
end

