-- ==== Sys2Proof/Config.lean ====
section
/-!
DEFINITION. What the spec leaves to the launch (00_scope.md R5, 92_eei_decisions.md "Open
parameters in one place"), and the values `State.reset` gives these parameters.
The spec leaves no value open inside an instruction (93_implementation_defined.md section 1), so
there is no free value here.
-/

namespace Sys2Proof

/-- The instruction text kept as bytes: address and byte pairs, addresses strictly rising
(`Memory.wf`). An address that is not listed holds no text (20_memory.md R42). -/
abbrev Memory := List Host.Cell

/-- The launch parameters of R5. The host chooses them before the run (70_reset_and_hazards.md
R191) and no step changes one. -/
structure Launch where
  /-- `PC_BITS`, the width of the program counter (10_state.md R26). -/
  pcBits : Nat
  /-- `FETCH_BIG_ENDIAN`, the byte order in which four bytes form an instruction word (R43). -/
  fetchBigEndian : Bool
  /-- `VEC_AVAILABLE`, whether the vector instructions are enabled (60_exceptions.md R162). -/
  vecAvailable : Bool
  /-- `ENTRY`, the pc at launch (10_state.md R29). -/
  entry : Nat
  /-- `END`, the address at which a run is over (70_reset_and_hazards.md R190). -/
  endAddr : Nat
  /-- `IMEM`, the program text, as bytes (20_memory.md R42, R43). -/
  text : Memory
  deriving DecidableEq, Repr

/-- How many vector registers there are (10_state.md R20). -/
def Config.numVRegs : Nat := 32

/-- The spec's default of `PC_BITS` (92 D1). Log entry 1. -/
def Config.defaultPcBits : Nat := 32

/-- The spec's default of `FETCH_BIG_ENDIAN` (92 D3). Log entry 3. -/
def Config.defaultFetchBigEndian : Bool := true

/-- The spec's default of `VEC_AVAILABLE` (92 D8). Log entry 9. -/
def Config.defaultVecAvailable : Bool := true

/-- `ENTRY` at `State.reset`. DESIGN CHOICE: the spec gives no default. Log entry 7. -/
def Config.resetEntry : Nat := 0

/-- `END` at `State.reset`: the highest instruction address of a 32-bit pc.
DESIGN CHOICE: the spec gives no default. Log entry 8. -/
def Config.resetEndAddr : Nat := 0xFFFFFFFC

/-- What each vector register holds at `State.reset`. DESIGN CHOICE: the spec says "any value"
(10_state.md R29). Log entry 5, unsafe. -/
def Config.resetVR : V128 := 0#128

/-- SAT at `State.reset`. DESIGN CHOICE: the spec says "any value" (10_state.md R29).
Log entry 6, unsafe. -/
def Config.resetSat : Bool := false

/-- The launch of `State.reset`: the spec's defaults, and no text. -/
def Launch.default : Launch :=
  { pcBits := Config.defaultPcBits
    fetchBigEndian := Config.defaultFetchBigEndian
    vecAvailable := Config.defaultVecAvailable
    entry := Config.resetEntry
    endAddr := Config.resetEndAddr
    text := [] }

end Sys2Proof
end

