-- ==== Sys2Proof/Syntax.lean ====
section
/-!
DEFINITION. The eight instructions (00_scope.md R1, 30_encoding.md R61, R62, R66), one constructor
per row of spec/opcode_table.json, operands in the order of the assembler (R69): destination
first, then the sources. The spec defines no pseudo-instruction (R70).
-/

namespace Sys2Proof

/-- The instruction set. Every operand is a vector register number (R65). -/
inductive Instr where
  /-- Vector Multiply High and Add Signed Half Word Saturate (R100). -/
  | vmhaddshs (vD vA vB vC : VReg)
  /-- Vector Multiply High Round and Add Signed Half Word Saturate (R104, 90_conflicts.md C1). -/
  | vmhraddshs (vD vA vB vC : VReg)
  /-- Vector Multiply Low and Add Unsigned Half Word Modulo (R108). -/
  | vmladduhm (vD vA vB vC : VReg)
  /-- Vector Multiply Even Signed Half Word (R120). -/
  | vmulesh (vD vA vB : VReg)
  /-- Vector Multiply Sum Signed Half Word Saturate (R130). -/
  | vmsumshs (vD vA vB vC : VReg)
  /-- Vector Sum Across Signed Word Saturate (R140). -/
  | vsumsws (vD vA vB : VReg)
  /-- Vector Sum Across Partial (1/2) Signed Word Saturate (R144). -/
  | vsum2sws (vD vA vB : VReg)
  /-- Vector Sum Across Partial (1/4) Signed Half Word Saturate (R148). -/
  | vsum4shs (vD vA vB : VReg)
  deriving DecidableEq, Repr

/-- The mnemonic each page prints (R69), in lower case. -/
def Instr.mnemonic : Instr → String
  | .vmhaddshs _ _ _ _ => "vmhaddshs"
  | .vmhraddshs _ _ _ _ => "vmhraddshs"
  | .vmladduhm _ _ _ _ => "vmladduhm"
  | .vmulesh _ _ _ => "vmulesh"
  | .vmsumshs _ _ _ _ => "vmsumshs"
  | .vsumsws _ _ _ => "vsumsws"
  | .vsum2sws _ _ _ => "vsum2sws"
  | .vsum4shs _ _ _ => "vsum4shs"

/-- The operands in the order they are written (R69): destination, then sources in field order. -/
def Instr.operands : Instr → List VReg
  | .vmhaddshs d a b c => [d, a, b, c]
  | .vmhraddshs d a b c => [d, a, b, c]
  | .vmladduhm d a b c => [d, a, b, c]
  | .vmulesh d a b => [d, a, b]
  | .vmsumshs d a b c => [d, a, b, c]
  | .vsumsws d a b => [d, a, b]
  | .vsum2sws d a b => [d, a, b]
  | .vsum4shs d a b => [d, a, b]

/-- The destination register of an instruction (field vD). -/
def Instr.dest : Instr → VReg
  | .vmhaddshs d _ _ _ => d
  | .vmhraddshs d _ _ _ => d
  | .vmladduhm d _ _ _ => d
  | .vmulesh d _ _ => d
  | .vmsumshs d _ _ _ => d
  | .vsumsws d _ _ => d
  | .vsum2sws d _ _ => d
  | .vsum4shs d _ _ => d

/-- The source registers of an instruction (fields vA, vB and, in the VA-form, vC). -/
def Instr.sources : Instr → List VReg
  | .vmhaddshs _ a b c => [a, b, c]
  | .vmhraddshs _ a b c => [a, b, c]
  | .vmladduhm _ a b c => [a, b, c]
  | .vmulesh _ a b => [a, b]
  | .vmsumshs _ a b c => [a, b, c]
  | .vsumsws _ a b => [a, b]
  | .vsum2sws _ a b => [a, b]
  | .vsum4shs _ a b => [a, b]

/-- Whether the instruction writes SAT: the table of 10_state.md R24. -/
def Instr.writesSat : Instr → Bool
  | .vmhaddshs _ _ _ _ => true
  | .vmhraddshs _ _ _ _ => true
  | .vmladduhm _ _ _ _ => false
  | .vmulesh _ _ _ => false
  | .vmsumshs _ _ _ _ => true
  | .vsumsws _ _ _ => true
  | .vsum2sws _ _ _ => true
  | .vsum4shs _ _ _ => true

/-- A register as it is written in a program: `v0` to `v31` (10_state.md R20, 30_encoding.md R69). -/
def VReg.asm (r : VReg) : String := "v" ++ toString r.toNat

/-- The assembly line of an instruction (R69): mnemonic, a space, operands separated by commas. -/
def Instr.asm (i : Instr) : String :=
  i.mnemonic ++ " " ++ String.intercalate "," (i.operands.map VReg.asm)

end Sys2Proof
end

