-- ==== Sys2Proof/Decode.lean ====
section
/-!
DEFINITION. Instruction words: how bytes form one (20_memory.md R43), the decoder (30_encoding.md
R67), the encoder (R63) and the opcode map (R66).
-/

namespace Sys2Proof

/-! ### Bytes and words -/

/-- The instruction word that four bytes at rising addresses form (R43): big-endian, the byte at
the lowest address in the most significant place, or the reverse order. -/
def wordOfBytes (bigEndian : Bool) (b0 b1 b2 b3 : Byte) : InstrWord :=
  if bigEndian then b0 ++ b1 ++ b2 ++ b3 else b3 ++ b2 ++ b1 ++ b0

/-- Byte `k` of an instruction word as it lies at address `a + k` (R43). -/
def byteOfWord (bigEndian : Bool) (w : InstrWord) (k : Fin 4) : Byte :=
  if bigEndian then w.extractLsb' (24 - 8 * k.val) 8 else w.extractLsb' (8 * k.val) 8

/-! ### Fields (R61, R62, R63) -/

/-- The primary opcode, `w[31:26]`. -/
def fieldOPCD (w : InstrWord) : BitVec 6 := w.extractLsb' 26 6

/-- Field vD, `w[25:21]`. -/
def fieldVD (w : InstrWord) : VReg := w.extractLsb' 21 5

/-- Field vA, `w[20:16]`. -/
def fieldVA (w : InstrWord) : VReg := w.extractLsb' 16 5

/-- Field vB, `w[15:11]`. -/
def fieldVB (w : InstrWord) : VReg := w.extractLsb' 11 5

/-- Field vC of the VA-form, `w[10:6]`. -/
def fieldVC (w : InstrWord) : VReg := w.extractLsb' 6 5

/-- The extended opcode of the VA-form, `w[5:0]`. -/
def fieldXO6 (w : InstrWord) : BitVec 6 := w.extractLsb' 0 6

/-- The extended opcode of the VX-form, `w[10:0]`. -/
def fieldXO11 (w : InstrWord) : BitVec 11 := w.extractLsb' 0 11

/-! ### The decoder -/

/-- Why the decoder gives no instruction. -/
inductive Reject where
  /-- The word is none of the eight (R72). -/
  | notInScope (w : InstrWord)
  deriving DecidableEq, Repr

/-- The decoder of R67, total on all words: the primary opcode, then the 6-bit extended opcodes,
then the 11-bit ones; every other word is rejected by name (R72). -/
def decode (w : InstrWord) : Except Reject Instr :=
  if fieldOPCD w ≠ 4#6 then .error (.notInScope w)
  else if fieldXO6 w = 32#6 then .ok (.vmhaddshs (fieldVD w) (fieldVA w) (fieldVB w) (fieldVC w))
  else if fieldXO6 w = 33#6 then .ok (.vmhraddshs (fieldVD w) (fieldVA w) (fieldVB w) (fieldVC w))
  else if fieldXO6 w = 34#6 then .ok (.vmladduhm (fieldVD w) (fieldVA w) (fieldVB w) (fieldVC w))
  else if fieldXO6 w = 41#6 then .ok (.vmsumshs (fieldVD w) (fieldVA w) (fieldVB w) (fieldVC w))
  else if fieldXO11 w = 840#11 then .ok (.vmulesh (fieldVD w) (fieldVA w) (fieldVB w))
  else if fieldXO11 w = 1608#11 then .ok (.vsum4shs (fieldVD w) (fieldVA w) (fieldVB w))
  else if fieldXO11 w = 1672#11 then .ok (.vsum2sws (fieldVD w) (fieldVA w) (fieldVB w))
  else if fieldXO11 w = 1928#11 then .ok (.vsumsws (fieldVD w) (fieldVA w) (fieldVB w))
  else .error (.notInScope w)

/-- The instruction the decoder reads from a row's bits, numbered as spec/opcode_table.json numbers
them: one 32-bit word, bit 0 the least significant; bits from `nbits` on are 0. The word is laid
out as bytes and read back in the default byte order. -/
def decodeTableWord (nbits w : Nat) : Option Instr :=
  let word : InstrWord := BitVec.ofNat 32 (w % 2 ^ nbits)
  let byte := byteOfWord Config.defaultFetchBigEndian word
  match decode (wordOfBytes Config.defaultFetchBigEndian (byte 0) (byte 1) (byte 2) (byte 3)) with
  | .ok i => some i
  | .error _ => none

/-! ### The encoder -/

/-- The VA-form word of R61: OPCD, vD, vA, vB, vC, XO from the most significant bit down. -/
def encodeVA (d a b c : VReg) (xo : BitVec 6) : InstrWord := 4#6 ++ d ++ a ++ b ++ c ++ xo

/-- The VX-form word of R62: OPCD, vD, vA, vB, XO from the most significant bit down. -/
def encodeVX (d a b : VReg) (xo : BitVec 11) : InstrWord := 4#6 ++ d ++ a ++ b ++ xo

/-- The word of an instruction (R63, R66). -/
def encode : Instr → InstrWord
  | .vmhaddshs d a b c => encodeVA d a b c 32#6
  | .vmhraddshs d a b c => encodeVA d a b c 33#6
  | .vmladduhm d a b c => encodeVA d a b c 34#6
  | .vmulesh d a b => encodeVX d a b 840#11
  | .vmsumshs d a b c => encodeVA d a b c 41#6
  | .vsumsws d a b => encodeVX d a b 1928#11
  | .vsum2sws d a b => encodeVX d a b 1672#11
  | .vsum4shs d a b => encodeVX d a b 1608#11

/-! ### The opcode map (R66) -/

/-- A row of the opcode map: a word is the instruction exactly when `w AND mask = pattern`. -/
structure OpcodeRow where
  mnemonic : String
  pattern : InstrWord
  mask : InstrWord
  deriving DecidableEq, Repr

/-- Whether a word falls under a row of the opcode map. -/
def OpcodeRow.selects (r : OpcodeRow) (w : InstrWord) : Bool := w &&& r.mask == r.pattern

/-- The opcode map of R66, in its order. -/
def opcodeTable : List OpcodeRow :=
  [ ⟨"vmhaddshs", 0x10000020#32, 0xFC00003F#32⟩,
    ⟨"vmhraddshs", 0x10000021#32, 0xFC00003F#32⟩,
    ⟨"vmladduhm", 0x10000022#32, 0xFC00003F#32⟩,
    ⟨"vmsumshs", 0x10000029#32, 0xFC00003F#32⟩,
    ⟨"vmulesh", 0x10000348#32, 0xFC0007FF#32⟩,
    ⟨"vsum4shs", 0x10000648#32, 0xFC0007FF#32⟩,
    ⟨"vsum2sws", 0x10000688#32, 0xFC0007FF#32⟩,
    ⟨"vsumsws", 0x10000788#32, 0xFC0007FF#32⟩ ]

end Sys2Proof
end

