-- ==== Sys2Proof/Machine/Flags.lean ====
section
/-!
DEFINITION. Saturation and the flag it raises (00_scope.md R10, R14; 10_state.md R24).
-/

namespace Sys2Proof.Machine

/-- The least value of an `n`-bit two's-complement signed integer. -/
def minInt (n : Nat) : Int := -(2 ^ (n - 1))

/-- The greatest value of an `n`-bit two's-complement signed integer. -/
def maxInt (n : Nat) : Int := 2 ^ (n - 1) - 1

/-- `sat_N(z)` (R14): the nearest `n`-bit signed integer, and whether `z` was out of range. It is
the source's `SIToSIsat` (R10). -/
def satS (n : Nat) (z : Int) : BitVec n × Bool :=
  (BitVec.ofInt n (min (max z (minInt n)) (maxInt n)), decide (maxInt n < z ∨ z < minInt n))

/-- The or of the lanes' flags (10_state.md R24, 70_reset_and_hazards.md R188). -/
def anyLane {n : Nat} (f : Fin n → Bool) : Bool := (List.finRange n).any f

end Sys2Proof.Machine
end

