-- ==== Sys2Proof/Machine/Operands.lean ====
section
/-!
DEFINITION. The elements of a vector register (00_scope.md R13, R14): element 0 is the most
significant, whatever the byte order of the text (20_memory.md R45).
-/

namespace Sys2Proof.Machine

/-- `HW(v, k)`: half-word element `k`, bits `v[127-16k : 112-16k]` (R14). -/
def hw (v : V128) (k : Fin 8) : HalfWord := v.extractLsb' (112 - 16 * k.val) 16

/-- `W(v, k)`: word element `k`, bits `v[127-32k : 96-32k]` (R14). -/
def wd (v : V128) (k : Fin 4) : Word := v.extractLsb' (96 - 32 * k.val) 32

/-- `packHW(h0, ..., h7)`: eight half words, `h0` most significant (R14). -/
def packHW (h : Fin 8 → HalfWord) : V128 :=
  h 0 ++ h 1 ++ h 2 ++ h 3 ++ h 4 ++ h 5 ++ h 6 ++ h 7

/-- `packW(w0, w1, w2, w3)`: four words, `w0` most significant (R14). -/
def packW (w : Fin 4 → Word) : V128 := w 0 ++ w 1 ++ w 2 ++ w 3

/-- The half-word element that is the high half of word element `k`: number `2k` (R13). -/
def evenHW (k : Fin 4) : Fin 8 := ⟨2 * k.val, by omega⟩

/-- The half-word element that is the low half of word element `k`: number `2k+1` (R13). -/
def oddHW (k : Fin 4) : Fin 8 := ⟨2 * k.val + 1, by omega⟩

/-- `a >>a n`: the floor of `a / 2^n` (R14). -/
def asr (a : Int) (n : Nat) : Int := a / 2 ^ n

end Sys2Proof.Machine
end

