-- ==== Sys2Proof/Machine/State.lean ====
section
/-!
DEFINITION. The state of the machine (10_state.md), why a step can stop, and the state right
after reset.
-/

namespace Sys2Proof.Machine

/-- The whole state (10_state.md, opening table), and the launch parameters of the step relation
(00_scope.md R5), which no step changes (log entry 2). The machine has no other state: no general
register, no other VSCR bit, no mode, no hidden state (R25, R27, R28, R168). -/
structure State where
  /-- `VR[0]` to `VR[31]`, 128 bits each (R20). -/
  vr : Vector V128 32
  /-- The SAT bit of VSCR, sticky (R23, R24). -/
  sat : Bool
  /-- The byte address of the instruction to execute (R26). -/
  pc : Nat
  /-- The launch parameters (R5). -/
  launch : Launch
  deriving DecidableEq, Repr

/-- Why the machine stops although no step was refused. The spec defines no exception, trap or
fault (60_exceptions.md R160, R166); this one name is the stuck state at the end of a run. -/
inductive Fault where
  /-- `pc = END`: the run is over, the state is final and no step exists (70_reset_and_hazards.md
  R190). Raised by `step` only. Safe: it says nothing of what real hardware executes after `END`. -/
  | runOver
  deriving DecidableEq, Repr

/-- Why a step is refused: the closed list of 60_exceptions.md R161. A refused state is not final
and no claim holds of it. -/
inductive Refusal where
  /-- An instruction that has no meaning yet. No arm of `exec` answers it. Safe. -/
  | notModelled (mnemonic : String)
  /-- `pc` is not a multiple of 4 (20_memory.md R44). Raised by `step`. Safe. -/
  | misalignedPc
  /-- There is no text at `pc` (20_memory.md R42). Raised by `step`. Safe. -/
  | fetchOutsideText
  /-- The fetched word is none of the eight instructions (30_encoding.md R72). Raised by `step`.
  Safe. -/
  | notInScope (w : InstrWord)
  /-- `VEC_AVAILABLE` is false (60_exceptions.md R162). Raised by every instruction. Safe. -/
  | vecUnavailable
  /-- `pc + 4` is not below `2^PC_BITS` (10_state.md R26). Raised by every instruction. Safe. -/
  | pcOverflow
  deriving DecidableEq, Repr

/-- The outcome of a step or of an instruction. -/
abbrev Result := Host.Outcome State Fault Refusal

/-- The state at launch (10_state.md R29, 70_reset_and_hazards.md R180, R191): the host chooses
the launch parameters, the vector registers and SAT; `pc` is `ENTRY`. -/
def State.ofLaunch (l : Launch) (vr : Vector V128 32) (sat : Bool) : State :=
  { vr := vr, sat := sat, pc := l.entry, launch := l }

/-- The machine right after reset, which in this spec means launch (R180). The spec fixes `pc` to
`ENTRY`; every other value is a default of the spec or a named choice of `Config` (log entries 1,
3, 5, 6, 7, 8, 9), and no text is placed (log entry 12). -/
def State.reset : State :=
  State.ofLaunch Launch.default (Vector.replicate 32 Config.resetVR) Config.resetSat

end Sys2Proof.Machine
end

