-- ==== Sys2Proof/Machine/Ops.lean ====
section
/-!
DEFINITION. The named operations over registers, text and pc that the meanings and the step share.
There is no operation for taking an exception or returning from one: none of the eight
instructions raises an exception and the machine has no trap entry and no trap return
(60_exceptions.md R160, R166, R167).
-/

namespace Sys2Proof

/-! ### The text as bytes -/

/-- The byte of text at an address; an unlisted address holds none (20_memory.md R42). -/
def Memory.read : Memory → Nat → Option Byte
  | [], _ => none
  | (k, b) :: m, a => if k = a then some b else Memory.read m a

/-- Put a byte of text at an address, keeping addresses strictly rising. Only the host places
text (70_reset_and_hazards.md R191): no instruction stores (R40, R51). -/
def Memory.write : Memory → Nat → Byte → Memory
  | [], a, b => [(a, b)]
  | (k, c) :: m, a, b =>
    if a < k then (a, b) :: (k, c) :: m
    else if a = k then (a, b) :: m
    else (k, c) :: Memory.write m a b

/-- Put the four bytes of an instruction word at an address (R43). -/
def Memory.writeWord (bigEndian : Bool) (m : Memory) (a : Nat) (w : InstrWord) : Memory :=
  let byte := byteOfWord bigEndian w
  Memory.write (Memory.write (Memory.write (Memory.write m a (byte 0)) (a + 1) (byte 1))
    (a + 2) (byte 2)) (a + 3) (byte 3)

end Sys2Proof

namespace Sys2Proof.Machine

/-! ### Registers -/

/-- `VR[r]` (00_scope.md R14). Every number names an ordinary register (10_state.md R21). -/
def readVR (s : State) (r : VReg) : V128 := s.vr[r.toNat]'r.isLt

/-- `VR[r] <- v`, all 128 bits at once (R14). -/
def writeVR (s : State) (r : VReg) (v : V128) : State := { s with vr := s.vr.set r.toNat v r.isLt }

/-- `SAT <- SAT or f`: SAT is sticky (10_state.md R24). -/
def orSat (s : State) (f : Bool) : State := { s with sat := s.sat || f }

/-- `pc <- pc + 4` (10_state.md R26). -/
def advancePc (s : State) : State := { s with pc := s.pc + 4 }

/-- Write eight half-word lanes to `d` and or their saturation flags into SAT. -/
def writeSatHW (s : State) (d : VReg) (lane : Fin 8 → HalfWord × Bool) : State :=
  orSat (writeVR s d (packHW fun k => (lane k).1)) (anyLane fun k => (lane k).2)

/-- Write four word lanes to `d` and or their saturation flags into SAT. -/
def writeSatW (s : State) (d : VReg) (lane : Fin 4 → Word × Bool) : State :=
  orSat (writeVR s d (packW fun k => (lane k).1)) (anyLane fun k => (lane k).2)

/-- The end of every instruction begun in `s` whose register effect gives `s'`: refused when the
vector instructions are not available (60_exceptions.md R162) or when `pc + 4` does not fit
(10_state.md R26), in the order of R165; otherwise the whole effect and `pc <- pc + 4` (R166). -/
def complete (s s' : State) : Result :=
  if s.launch.vecAvailable = false then .refused .vecUnavailable
  else if 2 ^ s.launch.pcBits ≤ s.pc + 4 then .refused .pcOverflow
  else .next (advancePc s')

/-! ### The instruction text -/

/-- The byte of text the machine holds at an address. -/
def textByte (s : State) (a : Nat) : Option Byte := Memory.read s.launch.text a

/-- `Fetch(a)` (R42, R43): the instruction word at `a`, when `a` is in the domain of the text: a
multiple of 4 below `2^PC_BITS` at which all four bytes are listed (log entry 4). -/
def fetch (l : Launch) (a : Nat) : Option InstrWord :=
  if a % 4 = 0 ∧ a < 2 ^ l.pcBits then
    match Memory.read l.text a, Memory.read l.text (a + 1), Memory.read l.text (a + 2),
        Memory.read l.text (a + 3) with
    | some b0, some b1, some b2, some b3 => some (wordOfBytes l.fetchBigEndian b0 b1 b2 b3)
    | _, _, _, _ => none
  else none

/-- The launch with an instruction word placed at `a` and, should `END` be `a`, with `END` moved
to the next word so that the run is not over there (log entry 12). -/
def placeWord (l : Launch) (a : Nat) (w : InstrWord) : Launch :=
  { l with
    text := Memory.writeWord l.fetchBigEndian l.text a w
    endAddr := if l.endAddr = a then a + 4 else l.endAddr }

end Sys2Proof.Machine
end

