-- ==== Sys2Proof/Machine/MultiplyAdd.lean ====
section
/-!
DEFINITION. vmhaddshs, vmhraddshs, vmladduhm (40_multiply_add.md): half-word lane `k` of vD from
lane `k` of vA, vB and vC, all sources read before vD is written (70_reset_and_hazards.md R187).
-/

namespace Sys2Proof.Machine

/-- One lane of vmhaddshs (R100): bits 0-16 of the product, plus the vC lane, saturated. -/
def vmhaddshsLane (x y z : HalfWord) : HalfWord × Bool :=
  satS 16 (asr (x.toInt * y.toInt) 15 + z.toInt)

/-- One lane of vmhraddshs (R104): the product rounded by adding 2^14, then as vmhaddshs. -/
def vmhraddshsLane (x y z : HalfWord) : HalfWord × Bool :=
  satS 16 (asr (x.toInt * y.toInt + 16384) 15 + z.toInt)

/-- One lane of vmladduhm (R108, R109): the low-order 16 bits of the exact unsigned sum. -/
def vmladduhmLane (x y z : HalfWord) : HalfWord :=
  BitVec.ofNat 16 (x.toNat * y.toNat + z.toNat)

/-- vmhaddshs vD,vA,vB,vC (R100). -/
def execVmhaddshs (vD vA vB vC : VReg) (s : State) : Result :=
  let a := readVR s vA
  let b := readVR s vB
  let c := readVR s vC
  complete s (writeSatHW s vD fun k => vmhaddshsLane (hw a k) (hw b k) (hw c k))

/-- vmhraddshs vD,vA,vB,vC (R104). -/
def execVmhraddshs (vD vA vB vC : VReg) (s : State) : Result :=
  let a := readVR s vA
  let b := readVR s vB
  let c := readVR s vC
  complete s (writeSatHW s vD fun k => vmhraddshsLane (hw a k) (hw b k) (hw c k))

/-- vmladduhm vD,vA,vB,vC (R108). SAT is neither set nor cleared. -/
def execVmladduhm (vD vA vB vC : VReg) (s : State) : Result :=
  let a := readVR s vA
  let b := readVR s vB
  let c := readVR s vC
  complete s (writeVR s vD (packHW fun k => vmladduhmLane (hw a k) (hw b k) (hw c k)))

end Sys2Proof.Machine
end

