-- ==== Sys2Proof/Machine/MultiplyEven.lean ====
section
/-!
DEFINITION. vmulesh (41_multiply_even.md): the full signed products of the even half words.
-/

namespace Sys2Proof.Machine

/-- One product of vmulesh (R120): 32 bits hold it exactly (R121). -/
def vmuleshLane (x y : HalfWord) : Word := BitVec.ofInt 32 (x.toInt * y.toInt)

/-- vmulesh vD,vA,vB (R120). SAT is neither set nor cleared. -/
def execVmulesh (vD vA vB : VReg) (s : State) : Result :=
  let a := readVR s vA
  let b := readVR s vB
  complete s (writeVR s vD (packW fun k => vmuleshLane (hw a (evenHW k)) (hw b (evenHW k))))

end Sys2Proof.Machine
end

