-- ==== Sys2Proof/Machine/MultiplySum.lean ====
section
/-!
DEFINITION. vmsumshs (42_multiply_sum.md): two products and a word, saturated once.
-/

namespace Sys2Proof.Machine

/-- One word lane of vmsumshs (R130): the exact sum of the vC word and the two products, saturated
once, at the end (R131). -/
def vmsumshsLane (x0 y0 x1 y1 : HalfWord) (z : Word) : Word × Bool :=
  satS 32 (z.toInt + x0.toInt * y0.toInt + x1.toInt * y1.toInt)

/-- vmsumshs vD,vA,vB,vC (R130). -/
def execVmsumshs (vD vA vB vC : VReg) (s : State) : Result :=
  let a := readVR s vA
  let b := readVR s vB
  let c := readVR s vC
  complete s (writeSatW s vD fun k =>
    vmsumshsLane (hw a (evenHW k)) (hw b (evenHW k)) (hw a (oddHW k)) (hw b (oddHW k)) (wd c k))

end Sys2Proof.Machine
end

