-- ==== Sys2Proof/Machine/SumAcross.lean ====
section
/-!
DEFINITION. vsumsws, vsum2sws, vsum4shs (43_sum_across.md): sums of vA's elements and a word of
vB, each exact sum saturated once to 32 bits (R141, R145, R149).
-/

namespace Sys2Proof.Machine

/-- The four result words of vsumsws (R140): words 0 to 2 cleared, word 3 the saturated sum. -/
def vsumswsLanes (a b : V128) (k : Fin 4) : Word × Bool :=
  if k = 3 then
    satS 32 ((wd b 3).toInt + (wd a 0).toInt + (wd a 1).toInt + (wd a 2).toInt + (wd a 3).toInt)
  else (0#32, false)

/-- The four result words of vsum2sws (R144): words 0 and 2 cleared, words 1 and 3 the sums. -/
def vsum2swsLanes (a b : V128) (k : Fin 4) : Word × Bool :=
  if k = 1 then satS 32 ((wd b 1).toInt + (wd a 0).toInt + (wd a 1).toInt)
  else if k = 3 then satS 32 ((wd b 3).toInt + (wd a 2).toInt + (wd a 3).toInt)
  else (0#32, false)

/-- One word lane of vsum4shs (R148): the saturation runs once, after both additions (R149). -/
def vsum4shsLane (x0 x1 : HalfWord) (z : Word) : Word × Bool :=
  satS 32 (z.toInt + x0.toInt + x1.toInt)

/-- vsumsws vD,vA,vB (R140). -/
def execVsumsws (vD vA vB : VReg) (s : State) : Result :=
  let a := readVR s vA
  let b := readVR s vB
  complete s (writeSatW s vD (vsumswsLanes a b))

/-- vsum2sws vD,vA,vB (R144). -/
def execVsum2sws (vD vA vB : VReg) (s : State) : Result :=
  let a := readVR s vA
  let b := readVR s vB
  complete s (writeSatW s vD (vsum2swsLanes a b))

/-- vsum4shs vD,vA,vB (R148). -/
def execVsum4shs (vD vA vB : VReg) (s : State) : Result :=
  let a := readVR s vA
  let b := readVR s vB
  complete s (writeSatW s vD fun k =>
    vsum4shsLane (hw a (evenHW k)) (hw a (oddHW k)) (wd b k))

end Sys2Proof.Machine
end

