-- ==== Sys2Proof/Machine/Dispatch.lean ====
section
/-!
DEFINITION. The instruction's meaning, one arm per constructor of Instr.
-/

namespace Sys2Proof.Machine

/-- What an instruction does in a state (70_reset_and_hazards.md R185, "execute instr"). -/
def exec (i : Instr) (s : State) : Host.Outcome State Fault Refusal :=
  match i with
  | .vmhaddshs vD vA vB vC => Sys2Proof.Machine.execVmhaddshs vD vA vB vC s
  | .vmhraddshs vD vA vB vC => Sys2Proof.Machine.execVmhraddshs vD vA vB vC s
  | .vmladduhm vD vA vB vC => Sys2Proof.Machine.execVmladduhm vD vA vB vC s
  | .vmulesh vD vA vB => Sys2Proof.Machine.execVmulesh vD vA vB s
  | .vmsumshs vD vA vB vC => Sys2Proof.Machine.execVmsumshs vD vA vB vC s
  | .vsumsws vD vA vB => Sys2Proof.Machine.execVsumsws vD vA vB s
  | .vsum2sws vD vA vB => Sys2Proof.Machine.execVsum2sws vD vA vB s
  | .vsum4shs vD vA vB => Sys2Proof.Machine.execVsum4shs vD vA vB s

end Sys2Proof.Machine
end

