-- ==== Sys2Proof/Machine/Step.lean ====
section
/-!
DEFINITION. One step of the one agent (70_reset_and_hazards.md R185), its checks in the order of
60_exceptions.md R165, and how an instruction word is placed where the next step fetches.
-/

namespace Sys2Proof.Machine

/-- The step of R185. `VecUnavailable` and `PcOverflow` are tested by the instruction itself
(`complete`), which is where R165 has them: after decoding. -/
def step (s : State) : Host.Outcome State Fault Refusal :=
  if s.pc % 4 ≠ 0 then .refused .misalignedPc
  else if s.pc = s.launch.endAddr then .fault .runOver
  else
    match fetch s.launch s.pc with
    | none => .refused .fetchOutsideText
    | some w =>
      match decode w with
      | .error (.notInScope w) => .refused (.notInScope w)
      | .ok i => exec i s

/-- `s` with an instruction placed at its pc: one 32-bit word, bits from `nbits` on 0, laid out in
the launch's byte order. This stands for the host's loading of the text (R191, log entry 12). -/
def State.withFetchWord (s : State) (nbits w : Nat) : State :=
  { s with launch := placeWord s.launch s.pc (BitVec.ofNat 32 (w % 2 ^ nbits)) }

end Sys2Proof.Machine
end

