-- ==== Sys2Proof/Laws/Decode.lean ====
section
/-!
SUPPORT. The fields of an encoded word (30_encoding.md R61, R62, R63), and the one way the decoder
rejects.
-/

namespace Sys2Proof

/-- The bits of a VA-form word, field by field from the least significant. -/
theorem getLsbD_encodeVA (d a b c : VReg) (xo : BitVec 6) (j : Nat) :
    (encodeVA d a b c xo).getLsbD j =
      if j < 6 then xo.getLsbD j else if j - 6 < 5 then c.getLsbD (j - 6)
      else if j - 6 - 5 < 5 then b.getLsbD (j - 6 - 5)
      else if j - 6 - 5 - 5 < 5 then a.getLsbD (j - 6 - 5 - 5)
      else if j - 6 - 5 - 5 - 5 < 5 then d.getLsbD (j - 6 - 5 - 5 - 5)
      else (4#6).getLsbD (j - 6 - 5 - 5 - 5 - 5) := by
  refine (BitVec.getLsbD_append ..).trans ?_
  simp only [BitVec.getLsbD_append]

/-- The bits of a VX-form word, field by field from the least significant. -/
theorem getLsbD_encodeVX (d a b : VReg) (xo : BitVec 11) (j : Nat) :
    (encodeVX d a b xo).getLsbD j =
      if j < 11 then xo.getLsbD j else if j - 11 < 5 then b.getLsbD (j - 11)
      else if j - 11 - 5 < 5 then a.getLsbD (j - 11 - 5)
      else if j - 11 - 5 - 5 < 5 then d.getLsbD (j - 11 - 5 - 5)
      else (4#6).getLsbD (j - 11 - 5 - 5 - 5) := by
  refine (BitVec.getLsbD_append ..).trans ?_
  simp only [BitVec.getLsbD_append]

/-- The fields of a VA-form word. -/
theorem fields_encodeVA (d a b c : VReg) (xo : BitVec 6) :
    fieldOPCD (encodeVA d a b c xo) = 4#6 ∧ fieldVD (encodeVA d a b c xo) = d ∧
    fieldVA (encodeVA d a b c xo) = a ∧ fieldVB (encodeVA d a b c xo) = b ∧
    fieldVC (encodeVA d a b c xo) = c ∧ fieldXO6 (encodeVA d a b c xo) = xo := by
  refine ⟨?_, ?_, ?_, ?_, ?_, ?_⟩
  all_goals
    apply BitVec.eq_of_getLsbD_eq
    intro j hj
    simp only [fieldOPCD, fieldVD, fieldVA, fieldVB, fieldVC, fieldXO6,
      BitVec.getLsbD_extractLsb', getLsbD_encodeVA]
    interval_cases j <;> simp

/-- The fields of a VX-form word; its low six bits are those of its extended opcode. -/
theorem fields_encodeVX (d a b : VReg) (xo : BitVec 11) :
    fieldOPCD (encodeVX d a b xo) = 4#6 ∧ fieldVD (encodeVX d a b xo) = d ∧
    fieldVA (encodeVX d a b xo) = a ∧ fieldVB (encodeVX d a b xo) = b ∧
    fieldXO11 (encodeVX d a b xo) = xo ∧
    fieldXO6 (encodeVX d a b xo) = xo.extractLsb' 0 6 := by
  refine ⟨?_, ?_, ?_, ?_, ?_, ?_⟩
  all_goals
    apply BitVec.eq_of_getLsbD_eq
    intro j hj
    simp only [fieldOPCD, fieldVD, fieldVA, fieldVB, fieldXO11, fieldXO6,
      BitVec.getLsbD_extractLsb', getLsbD_encodeVX]
    interval_cases j <;> simp

/-- The decoder rejects a word only under that word's own name (R72). -/
theorem decode_error {w : InstrWord} {r : Reject} (h : decode w = .error r) :
    r = .notInScope w := by
  unfold decode at h
  split_ifs at h <;> simp_all

end Sys2Proof
end

