-- ==== Sys2Proof/WellFormed.lean ====
section
/-!
DEFINITION. The checks on instructions, on the text and on a launch.
-/

namespace Sys2Proof

/-- A register number names one of the 32 vector registers (10_state.md R20). Every 5-bit field
value does (30_encoding.md R65): the type leaves no ill-formed operand. -/
def VReg.legal (r : VReg) : Bool := r.toNat < Config.numVRegs

/-- An instruction is well-formed when every operand names a vector register. By R65 every
instruction is: there is no reserved operand value, no immediate and no unused field. -/
def Instr.wellFormed (i : Instr) : Bool := i.operands.all VReg.legal

/-- The canonical form of the text: addresses strictly rising. An unlisted address holds no
value, so no listed byte can equal what it would read as unlisted. -/
abbrev Memory.wf (m : Memory) : Prop := m.Pairwise fun x y => x.1 < y.1

/-- A launch as the spec admits it: `PC_BITS` positive, `ENTRY` and `END` multiples of 4
(00_scope.md R5, 20_memory.md R44, 70_reset_and_hazards.md R181, R190), the text canonical. -/
structure Launch.wf (l : Launch) : Prop where
  pcBits_pos : 0 < l.pcBits
  entry_aligned : l.entry % 4 = 0
  endAddr_aligned : l.endAddr % 4 = 0
  text_canonical : Memory.wf l.text

/-- `Launch.wf` as a check that can be run. -/
def Launch.check (l : Launch) : Bool :=
  decide (0 < l.pcBits) && decide (l.entry % 4 = 0) && decide (l.endAddr % 4 = 0) &&
    decide (Memory.wf l.text)

end Sys2Proof
end

