-- ==== Sys2Proof/Laws/Memory.lean ====
section
/-!
SUPPORT. The laws of the instruction text: what is read after a write, the canonical form that
every write keeps, and the fetch of a placed word.
-/

namespace Sys2Proof

/-- Reading the byte just written gives it. -/
theorem Memory.read_write_same (m : Memory) (a : Nat) (b : Byte) :
    Memory.read (Memory.write m a b) a = some b := by
  induction m with
  | nil => simp [Memory.write, Memory.read]
  | cons c m ih =>
    obtain ⟨k, v⟩ := c
    unfold Memory.write
    split
    · simp [Memory.read]
    · split
      · simp [Memory.read]
      · have : k ≠ a := fun h => by simp_all
        simp [Memory.read, this, ih]

/-- A write leaves every other address alone. -/
theorem Memory.read_write_other (m : Memory) {a x : Nat} (b : Byte) (h : x ≠ a) :
    Memory.read (Memory.write m a b) x = Memory.read m x := by
  induction m with
  | nil => simp [Memory.write, Memory.read, Ne.symm h]
  | cons c m ih =>
    obtain ⟨k, v⟩ := c
    unfold Memory.write
    split
    · simp [Memory.read, Ne.symm h]
    · split
      · rename_i hk
        subst hk
        simp [Memory.read, Ne.symm h]
      · simp [Memory.read, ih]

/-- The addresses of a written text: those before, and the one written. -/
theorem Memory.mem_write (m : Memory) (a : Nat) (b : Byte) (c : Host.Cell)
    (h : c ∈ Memory.write m a b) : c = (a, b) ∨ c ∈ m := by
  induction m with
  | nil => simpa [Memory.write] using h
  | cons d m ih =>
    obtain ⟨k, v⟩ := d
    unfold Memory.write at h
    split at h
    · simpa using h
    · split at h
      · simp only [List.mem_cons] at h ⊢; tauto
      · simp only [List.mem_cons] at h ⊢
        rcases h with h | h
        · exact .inr (.inl h)
        · exact (ih h).imp_right .inr

/-- A write keeps the canonical form. -/
theorem Memory.write_wf (m : Memory) (a : Nat) (b : Byte) (h : Memory.wf m) :
    Memory.wf (Memory.write m a b) := by
  induction m with
  | nil => simp [Memory.write]
  | cons d m ih =>
    obtain ⟨k, v⟩ := d
    obtain ⟨hk, hm⟩ := List.pairwise_cons.mp h
    unfold Memory.write
    split
    · rename_i hlt
      refine List.pairwise_cons.mpr ⟨fun c hc => ?_, h⟩
      rcases List.mem_cons.mp hc with rfl | hc
      · exact hlt
      · exact Nat.lt_trans hlt (hk c hc)
    · split
      · rename_i he
        subst he
        exact List.pairwise_cons.mpr ⟨hk, hm⟩
      · refine List.pairwise_cons.mpr ⟨fun c hc => ?_, ih hm⟩
        rcases Memory.mem_write m a b c hc with rfl | hc
        · simp only; omega
        · exact hk c hc

/-- Placing a word keeps the canonical form. -/
theorem Memory.writeWord_wf (be : Bool) (m : Memory) (a : Nat) (w : InstrWord)
    (h : Memory.wf m) : Memory.wf (Memory.writeWord be m a w) := by
  unfold Memory.writeWord
  repeat' apply Memory.write_wf
  exact h

/-- The four bytes of a placed word. -/
theorem Memory.read_writeWord (be : Bool) (m : Memory) (a : Nat) (w : InstrWord) :
    Memory.read (Memory.writeWord be m a w) a = some (byteOfWord be w 0) ∧
    Memory.read (Memory.writeWord be m a w) (a + 1) = some (byteOfWord be w 1) ∧
    Memory.read (Memory.writeWord be m a w) (a + 2) = some (byteOfWord be w 2) ∧
    Memory.read (Memory.writeWord be m a w) (a + 3) = some (byteOfWord be w 3) := by
  simp [Memory.writeWord, Memory.read_write_same, Memory.read_write_other]

/-- Placing a word leaves every address outside its four bytes alone. -/
theorem Memory.read_writeWord_other (be : Bool) (m : Memory) {a x : Nat} (w : InstrWord)
    (h : x < a ∨ a + 3 < x) :
    Memory.read (Memory.writeWord be m a w) x = Memory.read m x := by
  unfold Memory.writeWord
  rw [Memory.read_write_other _ _ (by omega), Memory.read_write_other _ _ (by omega),
    Memory.read_write_other _ _ (by omega), Memory.read_write_other _ _ (by omega)]

/-- The bytes of a word form the word, in either byte order (20_memory.md R43). -/
theorem wordOfBytes_byteOfWord (be : Bool) (w : InstrWord) :
    wordOfBytes be (byteOfWord be w 0) (byteOfWord be w 1) (byteOfWord be w 2)
      (byteOfWord be w 3) = w := by
  cases be
  all_goals
    apply BitVec.eq_of_getLsbD_eq
    intro j hj
    refine (BitVec.getLsbD_append ..).trans ?_
    simp only [BitVec.getLsbD_append, byteOfWord]
    interval_cases j <;> simp

/-- The check on a launch that can be run says exactly that the launch is well-formed. -/
theorem Launch.check_eq_true (l : Launch) : l.check = true ↔ Launch.wf l := by
  simp only [Launch.check, Bool.and_eq_true, decide_eq_true_eq]
  exact ⟨fun ⟨⟨⟨a, b⟩, c⟩, d⟩ => ⟨a, b, c, d⟩, fun ⟨a, b, c, d⟩ => ⟨⟨⟨a, b⟩, c⟩, d⟩⟩

namespace Machine

/-- The text of the reset state is canonical. -/
theorem reset_text_wf : Memory.wf State.reset.launch.text := by decide

/-- A word placed at an address of the text's domain is the word fetched there. -/
theorem fetch_placeWord (l : Launch) (a : Nat) (w : InstrWord) (h4 : a % 4 = 0)
    (hlt : a < 2 ^ l.pcBits) : fetch (placeWord l a w) a = some w := by
  obtain ⟨h0, h1, h2, h3⟩ := Memory.read_writeWord l.fetchBigEndian l.text a w
  simp [fetch, placeWord, h4, hlt, h0, h1, h2, h3, wordOfBytes_byteOfWord]

/-- A fetch succeeds only in the domain of the text (R42). -/
theorem fetch_domain {l : Launch} {a : Nat} {w : InstrWord} (h : fetch l a = some w) :
    a % 4 = 0 ∧ a < 2 ^ l.pcBits := by
  unfold fetch at h
  split at h
  · assumption
  · cases h

/-- Placing a word changes only the text and, where it stood at the word, `END`. -/
theorem placeWord_keeps (l : Launch) (a : Nat) (w : InstrWord) :
    (placeWord l a w).pcBits = l.pcBits ∧
    (placeWord l a w).fetchBigEndian = l.fetchBigEndian ∧
    (placeWord l a w).vecAvailable = l.vecAvailable ∧ (placeWord l a w).entry = l.entry :=
  ⟨rfl, rfl, rfl, rfl⟩

/-- A word placed by `withFetchWord` at a pc of the text's domain is what the next step runs, also
where the run was over there (log entry 12). -/
theorem step_withFetchWord (s : State) (n w : Nat) (i : Instr) (h4 : s.pc % 4 = 0)
    (hlt : s.pc < 2 ^ s.launch.pcBits) (hd : decode (BitVec.ofNat 32 (w % 2 ^ n)) = .ok i) :
    step (s.withFetchWord n w) = exec i (s.withFetchWord n w) := by
  have hf := fetch_placeWord s.launch s.pc (BitVec.ofNat 32 (w % 2 ^ n)) h4 hlt
  have hne : s.pc ≠ (placeWord s.launch s.pc (BitVec.ofNat 32 (w % 2 ^ n))).endAddr := by
    change s.pc ≠ if s.launch.endAddr = s.pc then s.pc + 4 else s.launch.endAddr
    split <;> omega
  simp only [step, State.withFetchWord, h4, hne, hf, hd, ne_eq, not_true, if_false]

end Machine

end Sys2Proof
end

