-- ==== Sys2Proof/Laws/Flags.lean ====
section
/-!
SUPPORT. What saturation gives (00_scope.md R10, R14) and when a lane's flag is raised.
-/

namespace Sys2Proof.Machine

/-- The saturated 16-bit result, as an integer, is the value brought to the nearest bound. -/
theorem satS16_toInt (z : Int) :
    (satS 16 z).1.toInt = min (max z (-32768)) 32767 := by
  simp only [satS, minInt, maxInt, BitVec.toInt_ofInt]
  rw [Int.bmod_def]
  norm_num
  omega

/-- The saturated 32-bit result, as an integer, is the value brought to the nearest bound. -/
theorem satS32_toInt (z : Int) :
    (satS 32 z).1.toInt = min (max z (-2147483648)) 2147483647 := by
  simp only [satS, minInt, maxInt, BitVec.toInt_ofInt]
  rw [Int.bmod_def]
  norm_num
  omega

/-- The 16-bit flag says that the value was out of range. -/
theorem satS16_flag (z : Int) : (satS 16 z).2 = true ↔ 32767 < z ∨ z < -32768 := by
  exact decide_eq_true_iff.trans (by norm_num [minInt, maxInt])

/-- The 32-bit flag says that the value was out of range. -/
theorem satS32_flag (z : Int) : (satS 32 z).2 = true ↔ 2147483647 < z ∨ z < -2147483648 := by
  exact decide_eq_true_iff.trans (by norm_num [minInt, maxInt])

/-- The or of the lanes' flags is raised exactly when some lane's is (10_state.md R24). -/
@[simp] theorem anyLane_eq_true {n : Nat} (f : Fin n → Bool) :
    anyLane f = true ↔ ∃ k, f k = true := by simp [anyLane]

end Sys2Proof.Machine
end

