-- ==== Sys2Proof/Laws/Operands.lean ====
section
/-!
SUPPORT. Elements of packed registers (00_scope.md R14), and registers as their elements.
-/

namespace Sys2Proof.Machine

/-- The bits of a half-word element. -/
@[simp] theorem getLsbD_hw (v : V128) (k : Fin 8) (j : Nat) :
    (hw v k).getLsbD j = (decide (j < 16) && v.getLsbD (112 - 16 * k.val + j)) :=
  BitVec.getLsbD_extractLsb' ..

/-- The bits of a word element. -/
@[simp] theorem getLsbD_wd (v : V128) (k : Fin 4) (j : Nat) :
    (wd v k).getLsbD j = (decide (j < 32) && v.getLsbD (96 - 32 * k.val + j)) :=
  BitVec.getLsbD_extractLsb' ..

/-- One bit of a lane, its indices replaced by equal ones. -/
theorem lane_bit {n w : Nat} (h : Fin n → BitVec w) (p q : Fin n) (x y : Nat) (hk : p.val = q.val)
    (hx : x = y) : (h p).getLsbD x = (h q).getLsbD y := by rw [Fin.ext hk, hx]

/-- The bits of eight packed half words. -/
theorem getLsbD_packHW (h : Fin 8 → HalfWord) (j : Nat) (hj : j < 128) :
    (packHW h).getLsbD j = (h ⟨7 - j / 16, by omega⟩).getLsbD (j % 16) := by
  refine (BitVec.getLsbD_append ..).trans ?_
  simp only [BitVec.getLsbD_append]
  split_ifs <;> apply lane_bit <;> (try simp only [Fin.isValue, Fin.coe_ofNat_eq_mod]) <;> omega

/-- The bits of four packed words. -/
theorem getLsbD_packW (h : Fin 4 → Word) (j : Nat) (hj : j < 128) :
    (packW h).getLsbD j = (h ⟨3 - j / 32, by omega⟩).getLsbD (j % 32) := by
  refine (BitVec.getLsbD_append ..).trans ?_
  simp only [BitVec.getLsbD_append]
  split_ifs <;> apply lane_bit <;> (try simp only [Fin.isValue, Fin.coe_ofNat_eq_mod]) <;> omega

/-- `HW(packHW(h0, ..., h7), k) = hk` (R14). -/
@[simp] theorem hw_packHW (h : Fin 8 → HalfWord) (k : Fin 8) : hw (packHW h) k = h k := by
  apply BitVec.eq_of_getLsbD_eq
  intro j hj
  rw [getLsbD_hw, decide_eq_true hj, Bool.true_and, getLsbD_packHW _ _ (by omega)]
  exact lane_bit _ _ _ _ _ (by simp only; omega) (by omega)

/-- `W(packW(w0, ..., w3), k) = wk` (R14). -/
@[simp] theorem wd_packW (w : Fin 4 → Word) (k : Fin 4) : wd (packW w) k = w k := by
  apply BitVec.eq_of_getLsbD_eq
  intro j hj
  rw [getLsbD_wd, decide_eq_true hj, Bool.true_and, getLsbD_packW _ _ (by omega)]
  exact lane_bit _ _ _ _ _ (by simp only; omega) (by omega)

/-- Two registers with the same half-word elements are equal. -/
theorem eq_of_hw {u v : V128} (h : ∀ k, hw u k = hw v k) : u = v := by
  apply BitVec.eq_of_getLsbD_eq
  intro j hj
  have := congrArg (fun x => x.getLsbD (j % 16)) (h ⟨7 - j / 16, by omega⟩)
  simp only [getLsbD_hw] at this
  rw [decide_eq_true (by omega), Bool.true_and, Bool.true_and] at this
  rwa [show 112 - 16 * (7 - j / 16) + j % 16 = j by omega] at this

/-- Two registers with the same word elements are equal. -/
theorem eq_of_wd {u v : V128} (h : ∀ k, wd u k = wd v k) : u = v := by
  apply BitVec.eq_of_getLsbD_eq
  intro j hj
  have := congrArg (fun x => x.getLsbD (j % 32)) (h ⟨3 - j / 32, by omega⟩)
  simp only [getLsbD_wd] at this
  rw [decide_eq_true (by omega), Bool.true_and, Bool.true_and] at this
  rwa [show 96 - 32 * (3 - j / 32) + j % 32 = j by omega] at this
end Sys2Proof.Machine
end

