-- ==== Sys2Proof/Laws/State.lean ====
section
/-!
SUPPORT. What each update of State leaves in each field, and register reads after register writes.
-/

namespace Sys2Proof.Machine

@[simp] theorem writeVR_vr (s : State) (r : VReg) (v : V128) :
    (writeVR s r v).vr = s.vr.set r.toNat v r.isLt := rfl
@[simp] theorem writeVR_sat (s : State) (r : VReg) (v : V128) : (writeVR s r v).sat = s.sat := rfl
@[simp] theorem writeVR_pc (s : State) (r : VReg) (v : V128) : (writeVR s r v).pc = s.pc := rfl
@[simp] theorem writeVR_launch (s : State) (r : VReg) (v : V128) :
    (writeVR s r v).launch = s.launch := rfl

@[simp] theorem orSat_vr (s : State) (f : Bool) : (orSat s f).vr = s.vr := rfl
@[simp] theorem orSat_sat (s : State) (f : Bool) : (orSat s f).sat = (s.sat || f) := rfl
@[simp] theorem orSat_pc (s : State) (f : Bool) : (orSat s f).pc = s.pc := rfl
@[simp] theorem orSat_launch (s : State) (f : Bool) : (orSat s f).launch = s.launch := rfl

@[simp] theorem advancePc_vr (s : State) : (advancePc s).vr = s.vr := rfl
@[simp] theorem advancePc_sat (s : State) : (advancePc s).sat = s.sat := rfl
@[simp] theorem advancePc_pc (s : State) : (advancePc s).pc = s.pc + 4 := rfl
@[simp] theorem advancePc_launch (s : State) : (advancePc s).launch = s.launch := rfl

@[simp] theorem ofLaunch_vr (l : Launch) (vr : Vector V128 32) (f : Bool) :
    (State.ofLaunch l vr f).vr = vr := rfl
@[simp] theorem ofLaunch_sat (l : Launch) (vr : Vector V128 32) (f : Bool) :
    (State.ofLaunch l vr f).sat = f := rfl
@[simp] theorem ofLaunch_pc (l : Launch) (vr : Vector V128 32) (f : Bool) :
    (State.ofLaunch l vr f).pc = l.entry := rfl
@[simp] theorem ofLaunch_launch (l : Launch) (vr : Vector V128 32) (f : Bool) :
    (State.ofLaunch l vr f).launch = l := rfl

@[simp] theorem withFetchWord_vr (s : State) (n w : Nat) : (s.withFetchWord n w).vr = s.vr := rfl
@[simp] theorem withFetchWord_sat (s : State) (n w : Nat) : (s.withFetchWord n w).sat = s.sat := rfl
@[simp] theorem withFetchWord_pc (s : State) (n w : Nat) : (s.withFetchWord n w).pc = s.pc := rfl
@[simp] theorem withFetchWord_launch (s : State) (n w : Nat) :
    (s.withFetchWord n w).launch = placeWord s.launch s.pc (BitVec.ofNat 32 (w % 2 ^ n)) := rfl

/-- Reading the register just written gives the value written. -/
@[simp] theorem readVR_writeVR_same (s : State) (r : VReg) (v : V128) :
    readVR (writeVR s r v) r = v := by simp [readVR]

/-- Writing a register leaves every other register alone (10_state.md R21). -/
theorem readVR_writeVR_other (s : State) {r q : VReg} (v : V128) (h : q ≠ r) :
    readVR (writeVR s r v) q = readVR s q := by
  have hn : r.toNat ≠ q.toNat := fun e => h (BitVec.eq_of_toNat_eq e.symm)
  simp [readVR, Vector.getElem_set_ne, hn]

/-- A read after a write, both cases at once. -/
theorem readVR_writeVR (s : State) (r q : VReg) (v : V128) :
    readVR (writeVR s r v) q = if q = r then v else readVR s q := by
  by_cases h : q = r
  · subst h; simp
  · simp [h, readVR_writeVR_other]

@[simp] theorem readVR_orSat (s : State) (f : Bool) (r : VReg) :
    readVR (orSat s f) r = readVR s r := rfl
@[simp] theorem readVR_advancePc (s : State) (r : VReg) :
    readVR (advancePc s) r = readVR s r := rfl
@[simp] theorem readVR_withFetchWord (s : State) (n w : Nat) (r : VReg) :
    readVR (s.withFetchWord n w) r = readVR s r := rfl

@[simp] theorem textByte_writeVR (s : State) (r : VReg) (v : V128) (a : Nat) :
    textByte (writeVR s r v) a = textByte s a := rfl
@[simp] theorem textByte_orSat (s : State) (f : Bool) (a : Nat) :
    textByte (orSat s f) a = textByte s a := rfl
@[simp] theorem textByte_advancePc (s : State) (a : Nat) :
    textByte (advancePc s) a = textByte s a := rfl

/-- Or-ing `false` into SAT changes nothing. -/
@[simp] theorem orSat_false (s : State) : orSat s false = s := by simp [orSat]

/-- The last of two writes of one register stands. -/
@[simp] theorem writeVR_writeVR_same (s : State) (r : VReg) (u v : V128) :
    writeVR (writeVR s r u) r v = writeVR s r v := by simp [writeVR]

/-- Writing back what a register holds changes nothing. -/
@[simp] theorem writeVR_readVR (s : State) (r : VReg) : writeVR s r (readVR s r) = s := by
  simp [writeVR, readVR]

end Sys2Proof.Machine
end

