-- ==== Sys2Proof/Safety.lean ====
section
/-!
DEFINITION. What the claims speak of: when an instruction can run, when a state is final, and the
invariant of the machine.
-/

namespace Sys2Proof.Machine

/-- The conditions under which every instruction executes: the vector instructions are available
(60_exceptions.md R162) and the next pc fits (10_state.md R26). -/
abbrev Ready (s : State) : Prop :=
  s.launch.vecAvailable = true ∧ s.pc + 4 < 2 ^ s.launch.pcBits

/-- The run is over (70_reset_and_hazards.md R190). -/
def Final (s : State) : Prop := s.pc % 4 = 0 ∧ s.pc = s.launch.endAddr

/-- `k` steps, stopping where a step is refused or the run is over. -/
def run : Nat → State → Result
  | 0, s => .next s
  | k + 1, s =>
    match step s with
    | .next t => run k t
    | .fault f => .fault f
    | .refused r => .refused r

/-- The machine's invariant: the launch is one the spec admits, and `pc` is a multiple of 4
(10_state.md R26, 20_memory.md R44) that `PC_BITS` bits hold. -/
structure Inv (s : State) : Prop where
  launch_wf : Launch.wf s.launch
  pc_aligned : s.pc % 4 = 0
  pc_fits : s.pc < 2 ^ s.launch.pcBits

end Sys2Proof.Machine
end

