-- ==== Sys2Proof/Laws/Ops.lean ====
section
/-!
SUPPORT. What the shared operations can do, said once: how an instruction ends, and that every
instruction is one register write and one or into SAT, then that end.
-/

namespace Sys2Proof.Machine

/-- An instruction that can run completes with its whole effect and the advance of pc. -/
theorem complete_of_ready {s : State} (s' : State) (h : Ready s) :
    complete s s' = .next (advancePc s') := by
  obtain ⟨hv, hp⟩ := h
  simp [complete, hv, Nat.not_le.mpr hp]

/-- Everything `complete` can answer. -/
theorem complete_cases (s s' : State) :
    (s.launch.vecAvailable = false ∧ complete s s' = .refused .vecUnavailable) ∨
    (s.launch.vecAvailable = true ∧ 2 ^ s.launch.pcBits ≤ s.pc + 4 ∧
      complete s s' = .refused .pcOverflow) ∨
    (Ready s ∧ complete s s' = .next (advancePc s')) := by
  cases hv : s.launch.vecAvailable with
  | false => exact .inl ⟨rfl, by simp [complete, hv]⟩
  | true =>
    by_cases hp : 2 ^ s.launch.pcBits ≤ s.pc + 4
    · exact .inr (.inl ⟨rfl, hp, by simp [complete, hv, hp]⟩)
    · have hr : Ready s := ⟨hv, Nat.not_le.mp hp⟩
      exact .inr (.inr ⟨hr, complete_of_ready s' hr⟩)

/-- If `complete` answers a next state, the instruction could run and that state is its effect. -/
theorem complete_next {s s' t : State} (h : complete s s' = .next t) :
    Ready s ∧ t = advancePc s' := by
  rcases complete_cases s s' with ⟨-, e⟩ | ⟨-, -, e⟩ | ⟨hr, e⟩ <;> rw [e] at h <;> cases h
  exact ⟨hr, rfl⟩

/-- Every instruction is one write of its destination and one or into SAT, the latter with `false`
for the two instructions that do not write SAT (the table of 10_state.md R24). -/
theorem exec_eq_complete (i : Instr) (s : State) :
    ∃ (v : V128) (f : Bool), (i.writesSat = false → f = false) ∧
      exec i s = complete s (orSat (writeVR s i.dest v) f) := by
  cases i with
  | vmhaddshs d a b c => exact ⟨_, _, nofun, rfl⟩
  | vmhraddshs d a b c => exact ⟨_, _, nofun, rfl⟩
  | vmladduhm d a b c =>
    exact ⟨_, false, fun _ => rfl, by rw [orSat_false]; rfl⟩
  | vmulesh d a b =>
    exact ⟨_, false, fun _ => rfl, by rw [orSat_false]; rfl⟩
  | vmsumshs d a b c => exact ⟨_, _, nofun, rfl⟩
  | vsumsws d a b => exact ⟨_, _, nofun, rfl⟩
  | vsum2sws d a b => exact ⟨_, _, nofun, rfl⟩
  | vsum4shs d a b => exact ⟨_, _, nofun, rfl⟩

/-- If `exec` answers a next state, the instruction could run, and the state is the old one with
the destination written, SAT or-ed and pc advanced. -/
theorem exec_next {i : Instr} {s t : State} (h : exec i s = .next t) :
    Ready s ∧ ∃ (v : V128) (f : Bool), (i.writesSat = false → f = false) ∧
      t = advancePc (orSat (writeVR s i.dest v) f) := by
  obtain ⟨v, f, hf, e⟩ := exec_eq_complete i s
  rw [e] at h
  obtain ⟨hr, rfl⟩ := complete_next h
  exact ⟨hr, v, f, hf, rfl⟩

/-- If `step` answers a next state, pc was aligned and not `END`, a word was fetched there, and the
state is what its instruction gives (70_reset_and_hazards.md R185). -/
theorem step_next {s t : State} (h : step s = .next t) :
    s.pc % 4 = 0 ∧ s.pc ≠ s.launch.endAddr ∧
      ∃ w i, fetch s.launch s.pc = some w ∧ decode w = .ok i ∧ exec i s = .next t := by
  unfold step at h
  split at h
  · cases h
  · rename_i h4
    split at h
    · cases h
    · rename_i hne
      split at h
      · cases h
      · rename_i w hw
        split at h
        · cases h
        · rename_i i hi
          exact ⟨not_not.mp h4, hne, w, i, hw, hi, h⟩

/-- The first step of a run, taken. -/
theorem run_succ_next {k : Nat} {s t : State} (h : step s = .next t) : run (k + 1) s = run k t := by
  rw [run, h]

/-- The first step of a run, refused. -/
theorem run_succ_refused {k : Nat} {s : State} {r : Refusal} (h : step s = .refused r) :
    run (k + 1) s = .refused r := by rw [run, h]

/-- The first step of a run that is over. -/
theorem run_succ_over {k : Nat} {s : State} {f : Fault} (h : step s = .fault f) :
    run (k + 1) s = .fault f := by rw [run, h]

/-- A run is the run of the machine behind the host's interface. -/
theorem run_eq_core_run (k : Nat) (s : State) : run k s = Sys2Proof.core.run k s := by
  induction k generalizing s with
  | zero => rfl
  | succ k ih =>
    refine Eq.trans ?_ (Host.Core.run.eq_2 Sys2Proof.core s k).symm
    have hc : Sys2Proof.core.step s = step s := rfl
    rw [run, hc]
    cases step s with
    | next t => exact ih t
    | fault f => rfl
    | refused r => rfl

end Sys2Proof.Machine
end

