-- ==== Sys2Proof/Laws/PerInstr.lean ====
section
/-!
SUPPORT. Laws about each instruction as syntax, one lemma per constructor of Instr.
-/

namespace Sys2Proof.Laws.OpcodeMap

/-- The instruction is well-formed, and its word falls under the row of the opcode map that
carries its mnemonic and under no other (30_encoding.md R65, R66, R67). -/
def Statement (i : Instr) : Prop :=
  i.wellFormed = true ∧
    ∀ r ∈ opcodeTable, r.selects (encode i) = true ↔ r.mnemonic = i.mnemonic

/-- Every register number is legal (R65). -/
theorem legal_all (r : VReg) : r.legal = true := decide_eq_true r.isLt

/-- Under the VA mask a VA-form word keeps its primary and its 6-bit extended opcode. -/
theorem encodeVA_masked (d a b c : VReg) (xo : BitVec 6) :
    encodeVA d a b c xo &&& 0xFC00003F#32 = 0x10000000#32 ||| xo.setWidth 32 := by
  apply BitVec.eq_of_getLsbD_eq
  intro j hj
  rw [BitVec.getLsbD_and, BitVec.getLsbD_or,
    show (encodeVA d a b c xo).getLsbD j = _ from BitVec.getLsbD_append ..]
  simp only [BitVec.getLsbD_append]
  interval_cases j <;> simp

/-- Under the VX mask a VX-form word keeps its primary and its 11-bit extended opcode. -/
theorem encodeVX_masked (d a b : VReg) (xo : BitVec 11) :
    encodeVX d a b xo &&& 0xFC0007FF#32 = 0x10000000#32 ||| xo.setWidth 32 := by
  apply BitVec.eq_of_getLsbD_eq
  intro j hj
  rw [BitVec.getLsbD_and, BitVec.getLsbD_or,
    show (encodeVX d a b xo).getLsbD j = _ from BitVec.getLsbD_append ..]
  simp only [BitVec.getLsbD_append]
  interval_cases j <;> simp

/-- The VX mask keeps every bit that the VA mask keeps. -/
theorem mask_of_mask (w : InstrWord) :
    w &&& 0xFC0007FF#32 &&& 0xFC00003F#32 = w &&& 0xFC00003F#32 := by
  rw [BitVec.and_assoc]; rfl

/-- What a VA-form word that fell under a VX row would need of the row's low six bits. -/
theorem va_under_vx {d a b c : VReg} {xo : BitVec 6} {q : InstrWord}
    (h : encodeVA d a b c xo &&& 0xFC0007FF#32 = q) :
    0x10000000#32 ||| xo.setWidth 32 = q &&& 0xFC00003F#32 := by
  rw [← h, mask_of_mask, encodeVA_masked]

/-- A VX-form word under the VA mask keeps the low six bits of its extended opcode. -/
theorem encodeVX_va_masked (d a b : VReg) (xo : BitVec 11) :
    encodeVX d a b xo &&& 0xFC00003F#32 =
      (0x10000000#32 ||| xo.setWidth 32) &&& 0xFC00003F#32 := by
  rw [← encodeVX_masked d a b xo, mask_of_mask]

/-- A VA-form instruction under the eight rows, when no VX row ends in its extended opcode (R67). -/
theorem va_rows (d a b c : VReg) (xo : BitVec 6) (name : String)
    (hva : ∀ r ∈ opcodeTable.take 4,
      (0x10000000#32 ||| xo.setWidth 32 = r.pattern ↔ r.mnemonic = name) ∧ r.mask = 0xFC00003F#32)
    (hvx : ∀ r ∈ opcodeTable.drop 4,
      0x10000000#32 ||| xo.setWidth 32 ≠ r.pattern &&& 0xFC00003F#32 ∧ r.mnemonic ≠ name ∧
        r.mask = 0xFC0007FF#32) :
    ∀ r ∈ opcodeTable, r.selects (encodeVA d a b c xo) = true ↔ r.mnemonic = name := by
  intro r hr
  rw [← List.take_append_drop 4 opcodeTable, List.mem_append] at hr
  rcases hr with hr | hr
  · obtain ⟨hp, hm⟩ := hva r hr
    rw [OpcodeRow.selects, beq_iff_eq, hm, encodeVA_masked, hp]
  · obtain ⟨hp, hn, hm⟩ := hvx r hr
    rw [OpcodeRow.selects, beq_iff_eq, hm]
    exact ⟨fun e => absurd (va_under_vx e) hp, fun e => absurd e hn⟩

/-- A VX-form instruction under the eight rows, when its extended opcode ends in no VA one (R67). -/
theorem vx_rows (d a b : VReg) (xo : BitVec 11) (name : String)
    (hva : ∀ r ∈ opcodeTable.take 4,
      (0x10000000#32 ||| xo.setWidth 32) &&& 0xFC00003F#32 ≠ r.pattern ∧ r.mnemonic ≠ name ∧
        r.mask = 0xFC00003F#32)
    (hvx : ∀ r ∈ opcodeTable.drop 4,
      (0x10000000#32 ||| xo.setWidth 32 = r.pattern ↔ r.mnemonic = name) ∧
        r.mask = 0xFC0007FF#32) :
    ∀ r ∈ opcodeTable, r.selects (encodeVX d a b xo) = true ↔ r.mnemonic = name := by
  intro r hr
  rw [← List.take_append_drop 4 opcodeTable, List.mem_append] at hr
  rcases hr with hr | hr
  · obtain ⟨hp, hn, hm⟩ := hva r hr
    rw [OpcodeRow.selects, beq_iff_eq, hm, encodeVX_va_masked]
    exact ⟨fun e => absurd e hp, fun e => absurd e hn⟩
  · obtain ⟨hp, hm⟩ := hvx r hr
    rw [OpcodeRow.selects, beq_iff_eq, hm, encodeVX_masked, hp]

theorem vmhaddshs (d a b c : VReg) : Statement (.vmhaddshs d a b c) :=
  ⟨by simp [Instr.wellFormed, Instr.operands, legal_all],
    va_rows d a b c 32#6 "vmhaddshs" (by decide) (by decide)⟩

theorem vmhraddshs (d a b c : VReg) : Statement (.vmhraddshs d a b c) :=
  ⟨by simp [Instr.wellFormed, Instr.operands, legal_all],
    va_rows d a b c 33#6 "vmhraddshs" (by decide) (by decide)⟩

theorem vmladduhm (d a b c : VReg) : Statement (.vmladduhm d a b c) :=
  ⟨by simp [Instr.wellFormed, Instr.operands, legal_all],
    va_rows d a b c 34#6 "vmladduhm" (by decide) (by decide)⟩

theorem vmulesh (d a b : VReg) : Statement (.vmulesh d a b) :=
  ⟨by simp [Instr.wellFormed, Instr.operands, legal_all],
    vx_rows d a b 840#11 "vmulesh" (by decide) (by decide)⟩

theorem vmsumshs (d a b c : VReg) : Statement (.vmsumshs d a b c) :=
  ⟨by simp [Instr.wellFormed, Instr.operands, legal_all],
    va_rows d a b c 41#6 "vmsumshs" (by decide) (by decide)⟩

theorem vsumsws (d a b : VReg) : Statement (.vsumsws d a b) :=
  ⟨by simp [Instr.wellFormed, Instr.operands, legal_all],
    vx_rows d a b 1928#11 "vsumsws" (by decide) (by decide)⟩

theorem vsum2sws (d a b : VReg) : Statement (.vsum2sws d a b) :=
  ⟨by simp [Instr.wellFormed, Instr.operands, legal_all],
    vx_rows d a b 1672#11 "vsum2sws" (by decide) (by decide)⟩

theorem vsum4shs (d a b : VReg) : Statement (.vsum4shs d a b) :=
  ⟨by simp [Instr.wellFormed, Instr.operands, legal_all],
    vx_rows d a b 1608#11 "vsum4shs" (by decide) (by decide)⟩

end Sys2Proof.Laws.OpcodeMap
end

