-- ==== Sys2Proof/Certificates/Slice0/Obligations.lean ====
section
/-!
DEFINITION. The statements for the provers, and the words they are said in. The statements' words
(`clamp`, `outside`, the source's pseudocode) are written from the spec and not from the meanings:
the meanings compute with exact integers (00_scope.md R14), the source's pseudocode with
temporaries of a fixed width and with slices of registers numbered from the most significant bit
(R6, R7).
Throughout, that a pc exists and advances by 4, that the vector unit can be unavailable, and the
premise `Ready` made of them, are the spec's own choices (92_eei_decisions.md D1, D8), as is that
SAT is sticky for all six saturating instructions (D10).
-/

namespace Sys2Proof.Claims

open Sys2Proof.Machine

/-- The value of `sat_N(z)` (R14) for the range `lo .. hi`. -/
def clamp (lo hi z : Int) : Int := if hi < z then hi else if z < lo then lo else z

/-- `sat_N(z)` saturates (R14). -/
def outside (lo hi z : Int) : Prop := hi < z ∨ z < lo

/-- What every instruction with destination `d` leaves unchanged: every other vector register, the
launch parameters and with them every byte of text; and the pc, which advances by 4. -/
def KeepsTheRest (d : VReg) (s t : State) : Prop :=
  (∀ r, r ≠ d → readVR t r = readVR s r) ∧ t.launch = s.launch ∧
    (∀ x, textByte t x = textByte s x) ∧ t.pc = s.pc + 4

/-- A word is the instruction exactly when `w AND mask = pattern` (30_encoding.md R66). -/
def SelectedBy (mask pattern : InstrWord) (isIt : Instr → Prop) : Prop :=
  ∀ w, w &&& mask = pattern ↔ ∃ i, decode w = .ok i ∧ isIt i

end Sys2Proof.Claims

/-! ### The source's pseudocode, run as it is written (R6 to R12) -/

namespace Sys2Proof.Source

open Sys2Proof.Machine

/-- `X a:a+n-1` (R7): `n` bits of `X` from bit `a` on, bit 0 the most significant (R6). -/
def bits {m : Nat} (x : BitVec m) (a n : Nat) : BitVec n := x.extractLsb' (m - a - n) n

/-- `vD a:a+n-1 ← x` (R7): those bits written, the other bits of the register as they were. -/
def setBits (v : V128) (a : Nat) {n : Nat} (x : BitVec n) : V128 :=
  v &&& ~~~((BitVec.allOnes n).setWidth 128 <<< (128 - a - n)) ||| x.setWidth 128 <<< (128 - a - n)

/-- `SIToSIsat(x, n)` of a temporary `x` (R10), and whether it saturated. -/
def siToSIsat {m : Nat} (x : BitVec m) (n : Nat) : BitVec n × Bool :=
  if x.toInt > 2 ^ (n - 1) - 1 then (BitVec.ofInt n (2 ^ (n - 1) - 1), true)
  else if x.toInt < -(2 ^ (n - 1)) then (BitVec.ofInt n (-(2 ^ (n - 1))), true)
  else (x.setWidth n, false)

/-- `do i=0 to hi by c` (R12). -/
def doLoop {α : Type} (hi c : Nat) (body : α → Nat → α) (start : α) : α :=
  ((List.range (hi / c + 1)).map (c * ·)).foldl body start

/-- `(vD)i:i+n-1 ← r`, and `(VSCRsat) ← (VSCRsat) ∨ f` (R24, 90_conflicts.md C4). -/
def assign (s : State) (d : VReg) (i : Nat) {n : Nat} (r : BitVec n × Bool) : State :=
  orSat (writeVR s d (setBits (readVR s d) i r.1)) r.2

/-- The vmhaddshs pseudocode (R100). -/
def vmhaddshs (d a b c : VReg) : State → State :=
  doLoop 127 16 fun s i =>
    let prod : BitVec 32 :=
      (bits (readVR s a) i 16).signExtend 32 * (bits (readVR s b) i 16).signExtend 32
    let temp : BitVec 17 := bits prod 0 17 + (bits (readVR s c) i 16).signExtend 17
    assign s d i (siToSIsat temp 16)

/-- The vmhraddshs pseudocode (R104, R105). -/
def vmhraddshs (d a b c : VReg) : State → State :=
  doLoop 127 16 fun s i =>
    let prod : BitVec 32 :=
      (bits (readVR s a) i 16).signExtend 32 * (bits (readVR s b) i 16).signExtend 32
    let sum : BitVec 18 := bits prod 0 18 + ((bits (readVR s c) i 16).signExtend 17 ++ 1#1)
    let temp : BitVec 17 := bits sum 0 17
    assign s d i (siToSIsat temp 16)

/-- The vmladduhm pseudocode (R108), its sum reduced modulo 2^16 (R109). -/
def vmladduhm (d a b c : VReg) : State → State :=
  doLoop 127 16 fun s i =>
    let prod : BitVec 32 :=
      (bits (readVR s a) i 16).zeroExtend 32 * (bits (readVR s b) i 16).zeroExtend 32
    let sum : BitVec 32 := prod + (bits (readVR s c) i 16).zeroExtend 32
    assign s d i (bits sum 16 16, false)

/-- The vmulesh pseudocode (R120), `n = 16` (R121). -/
def vmulesh (d a b : VReg) : State → State :=
  doLoop 127 32 fun s i =>
    let prod : BitVec 32 :=
      (bits (readVR s a) i 16).signExtend 32 * (bits (readVR s b) i 16).signExtend 32
    assign s d i (prod, false)

/-- The vmsumshs pseudocode (R130). -/
def vmsumshs (d a b c : VReg) : State → State :=
  doLoop 127 32 fun s i =>
    let temp : BitVec 34 :=
      doLoop 31 16
        (fun temp j =>
          let prod : BitVec 32 :=
            (bits (readVR s a) (i + j) 16).signExtend 32 *
              (bits (readVR s b) (i + j) 16).signExtend 32
          temp + prod.signExtend 34)
        ((bits (readVR s c) i 32).signExtend 34)
    assign s d i (siToSIsat temp 32)

/-- The vsumsws pseudocode (R140): its single write clears bits 0-95. -/
def vsumsws (d a b : VReg) (s : State) : State :=
  let temp : BitVec 35 :=
    doLoop 127 32 (fun temp i => temp + (bits (readVR s a) i 32).signExtend 35)
      ((bits (readVR s b) 96 32).signExtend 35)
  let r := siToSIsat temp 32
  orSat (writeVR s d (0#96 ++ r.1)) r.2

/-- The vsum2sws pseudocode (R144). -/
def vsum2sws (d a b : VReg) : State → State :=
  doLoop 127 64 fun s i =>
    let temp : BitVec 34 :=
      doLoop 63 32 (fun temp j => temp + (bits (readVR s a) (i + j) 32).signExtend 34)
        ((bits (readVR s b) (i + 32) 32).signExtend 34)
    let r := siToSIsat temp 32
    assign s d i (0#32 ++ r.1, r.2)

/-- The vsum4shs pseudocode (R148), the assignment after the inner loop (R149). -/
def vsum4shs (d a b : VReg) : State → State :=
  doLoop 127 32 fun s i =>
    let temp : BitVec 33 :=
      doLoop 31 16 (fun temp j => temp + (bits (readVR s a) (i + j) 16).signExtend 33)
        ((bits (readVR s b) i 32).signExtend 33)
    assign s d i (siToSIsat temp 32)

end Sys2Proof.Source

open Sys2Proof Sys2Proof.Machine Sys2Proof.Claims

/-! ### What each instruction does: it completes, with this result and this frame -/

/-- R100, whole: the encoding of vmhaddshs, and, where an instruction can run (R162, R26), every
half-word lane of vD, SAT, and what stays. That SAT is a sticky or here is the spec's own choice
D10 (log entry 14). -/
def Obligations.VmhaddshsMultipliesHighAndAdds : Prop :=
  SelectedBy 0xFC00003F#32 0x10000020#32 (fun i => ∃ d a b c, i = .vmhaddshs d a b c) ∧
  ∀ (d a b c : VReg) (s : State), Ready s →
    let temp : Fin 8 → Int := fun k =>
      (hw (readVR s a) k).toInt * (hw (readVR s b) k).toInt / 32768 + (hw (readVR s c) k).toInt
    ∃ t, exec (.vmhaddshs d a b c) s = .next t ∧
      (∀ k, (hw (readVR t d) k).toInt = clamp (-32768) 32767 (temp k)) ∧
      (t.sat = true ↔ s.sat = true ∨ ∃ k, outside (-32768) 32767 (temp k)) ∧
      KeepsTheRest d s t

/-- R104, whole: the encoding of vmhraddshs, and every half-word lane of vD, SAT, and what stays.
-/
def Obligations.VmhraddshsRoundsTheProduct : Prop :=
  SelectedBy 0xFC00003F#32 0x10000021#32 (fun i => ∃ d a b c, i = .vmhraddshs d a b c) ∧
  ∀ (d a b c : VReg) (s : State), Ready s →
    let temp : Fin 8 → Int := fun k =>
      ((hw (readVR s a) k).toInt * (hw (readVR s b) k).toInt + 16384) / 32768 +
        (hw (readVR s c) k).toInt
    ∃ t, exec (.vmhraddshs d a b c) s = .next t ∧
      (∀ k, (hw (readVR t d) k).toInt = clamp (-32768) 32767 (temp k)) ∧
      (t.sat = true ↔ s.sat = true ∨ ∃ k, outside (-32768) 32767 (temp k)) ∧
      KeepsTheRest d s t

/-- R108, whole: the encoding of vmladduhm, every half-word lane of vD modulo 2^16, SAT neither
set nor cleared, and what stays. That the low-order 16 bits are the ones kept is the spec's own
reading D17 (log entry 15). -/
def Obligations.VmladduhmKeepsTheLowHalf : Prop :=
  SelectedBy 0xFC00003F#32 0x10000022#32 (fun i => ∃ d a b c, i = .vmladduhm d a b c) ∧
  ∀ (d a b c : VReg) (s : State), Ready s →
    ∃ t, exec (.vmladduhm d a b c) s = .next t ∧
      (∀ k, (hw (readVR t d) k).toNat =
        ((hw (readVR s a) k).toNat * (hw (readVR s b) k).toNat + (hw (readVR s c) k).toNat) %
          65536) ∧
      t.sat = s.sat ∧ KeepsTheRest d s t

/-- R120, whole: the encoding of vmulesh, every word of vD the exact product of the even half
words, SAT neither set nor cleared, and what stays. -/
def Obligations.VmuleshMultipliesEvenHalfWords : Prop :=
  SelectedBy 0xFC0007FF#32 0x10000348#32 (fun i => ∃ d a b, i = .vmulesh d a b) ∧
  ∀ (d a b : VReg) (s : State), Ready s →
    ∃ t, exec (.vmulesh d a b) s = .next t ∧
      (∀ k : Fin 4, (wd (readVR t d) k).toInt =
        (hw (readVR s a) (evenHW k)).toInt * (hw (readVR s b) (evenHW k)).toInt) ∧
      t.sat = s.sat ∧ KeepsTheRest d s t

/-- R130, whole: the encoding of vmsumshs, every word of vD the sum saturated once, SAT, and what
stays. That SAT is a sticky or here is the spec's own choice D10 (log entry 14). -/
def Obligations.VmsumshsSumsTwoProductsAndAWord : Prop :=
  SelectedBy 0xFC00003F#32 0x10000029#32 (fun i => ∃ d a b c, i = .vmsumshs d a b c) ∧
  ∀ (d a b c : VReg) (s : State), Ready s →
    let temp : Fin 4 → Int := fun k =>
      (wd (readVR s c) k).toInt +
        (hw (readVR s a) (evenHW k)).toInt * (hw (readVR s b) (evenHW k)).toInt +
        (hw (readVR s a) (oddHW k)).toInt * (hw (readVR s b) (oddHW k)).toInt
    ∃ t, exec (.vmsumshs d a b c) s = .next t ∧
      (∀ k, (wd (readVR t d) k).toInt = clamp (-2147483648) 2147483647 (temp k)) ∧
      (t.sat = true ↔ s.sat = true ∨ ∃ k, outside (-2147483648) 2147483647 (temp k)) ∧
      KeepsTheRest d s t

/-- R140, whole: the encoding of vsumsws, word 3 of vD the sum of five words saturated once, words
0 to 2 cleared, SAT, and what stays. That SAT is a sticky or here is the spec's own choice D10
(log entry 14). -/
def Obligations.VsumswsSumsAcrossFourWords : Prop :=
  SelectedBy 0xFC0007FF#32 0x10000788#32 (fun i => ∃ d a b, i = .vsumsws d a b) ∧
  ∀ (d a b : VReg) (s : State), Ready s →
    let temp : Int :=
      (wd (readVR s b) 3).toInt + (wd (readVR s a) 0).toInt + (wd (readVR s a) 1).toInt +
        (wd (readVR s a) 2).toInt + (wd (readVR s a) 3).toInt
    ∃ t, exec (.vsumsws d a b) s = .next t ∧
      (wd (readVR t d) 3).toInt = clamp (-2147483648) 2147483647 temp ∧
      wd (readVR t d) 0 = 0#32 ∧ wd (readVR t d) 1 = 0#32 ∧ wd (readVR t d) 2 = 0#32 ∧
      (t.sat = true ↔ s.sat = true ∨ outside (-2147483648) 2147483647 temp) ∧
      KeepsTheRest d s t

/-- R144, whole: the encoding of vsum2sws, words 1 and 3 of vD the sums of the two halves, each
saturated once, words 0 and 2 cleared, SAT, and what stays. That SAT is a sticky or here is the
spec's own choice D10 (log entry 14). -/
def Obligations.Vsum2swsSumsAcrossEachHalf : Prop :=
  SelectedBy 0xFC0007FF#32 0x10000688#32 (fun i => ∃ d a b, i = .vsum2sws d a b) ∧
  ∀ (d a b : VReg) (s : State), Ready s →
    let t0 : Int :=
      (wd (readVR s b) 1).toInt + (wd (readVR s a) 0).toInt + (wd (readVR s a) 1).toInt
    let t1 : Int :=
      (wd (readVR s b) 3).toInt + (wd (readVR s a) 2).toInt + (wd (readVR s a) 3).toInt
    ∃ t, exec (.vsum2sws d a b) s = .next t ∧
      (wd (readVR t d) 1).toInt = clamp (-2147483648) 2147483647 t0 ∧
      (wd (readVR t d) 3).toInt = clamp (-2147483648) 2147483647 t1 ∧
      wd (readVR t d) 0 = 0#32 ∧ wd (readVR t d) 2 = 0#32 ∧
      (t.sat = true ↔ s.sat = true ∨ outside (-2147483648) 2147483647 t0 ∨
        outside (-2147483648) 2147483647 t1) ∧
      KeepsTheRest d s t

/-- R148, whole: the encoding of vsum4shs, every word of vD the sum of a word and two half words
saturated once, after both additions, SAT, and what stays. That it saturates once per word, after
both additions, is the spec's own reading D18 (log entry 15). That SAT is a sticky or here is the
spec's own choice D10 (log entry 14). -/
def Obligations.Vsum4shsSumsAcrossEachWord : Prop :=
  SelectedBy 0xFC0007FF#32 0x10000648#32 (fun i => ∃ d a b, i = .vsum4shs d a b) ∧
  ∀ (d a b : VReg) (s : State), Ready s →
    let temp : Fin 4 → Int := fun k =>
      (wd (readVR s b) k).toInt + (hw (readVR s a) (evenHW k)).toInt +
        (hw (readVR s a) (oddHW k)).toInt
    ∃ t, exec (.vsum4shs d a b) s = .next t ∧
      (∀ k, (wd (readVR t d) k).toInt = clamp (-2147483648) 2147483647 (temp k)) ∧
      (t.sat = true ↔ s.sat = true ∨ ∃ k, outside (-2147483648) 2147483647 (temp k)) ∧
      KeepsTheRest d s t

/-! ### The meanings and the source's pseudocode give the same machine -/

/-- R101, R187, R188: the 17-bit temporaries, the in-place loop and the lane-by-lane or give what
the exact integers, the single write and the single or give. -/
def Obligations.VmhaddshsRunsAsTheSourceLoop : Prop :=
  ∀ (d a b c : VReg) (s : State), Ready s →
    exec (.vmhaddshs d a b c) s = .next (advancePc (Source.vmhaddshs d a b c s))

/-- R105, R187, R188: the appended rounding bit of the source is the exact rounding. -/
def Obligations.VmhraddshsRunsAsTheSourceLoop : Prop :=
  ∀ (d a b c : VReg) (s : State), Ready s →
    exec (.vmhraddshs d a b c) s = .next (advancePc (Source.vmhraddshs d a b c s))

/-- R109, R187: the low-order half of the source's 32-bit sum. -/
def Obligations.VmladduhmRunsAsTheSourceLoop : Prop :=
  ∀ (d a b c : VReg) (s : State), Ready s →
    exec (.vmladduhm d a b c) s = .next (advancePc (Source.vmladduhm d a b c s))

/-- R121, R122, R187: the source's in-place loop over double-width elements. -/
def Obligations.VmuleshRunsAsTheSourceLoop : Prop :=
  ∀ (d a b : VReg) (s : State), Ready s →
    exec (.vmulesh d a b) s = .next (advancePc (Source.vmulesh d a b s))

/-- R131, R187, R188: the 34-bit temporary and the two-level loop. -/
def Obligations.VmsumshsRunsAsTheSourceLoop : Prop :=
  ∀ (d a b c : VReg) (s : State), Ready s →
    exec (.vmsumshs d a b c) s = .next (advancePc (Source.vmsumshs d a b c s))

/-- R141, R187: the 35-bit temporary and the single write. -/
def Obligations.VsumswsRunsAsTheSourceLoop : Prop :=
  ∀ (d a b : VReg) (s : State), Ready s →
    exec (.vsumsws d a b) s = .next (advancePc (Source.vsumsws d a b s))

/-- R145, R187, R188: the 34-bit temporary, doubleword by doubleword. -/
def Obligations.Vsum2swsRunsAsTheSourceLoop : Prop :=
  ∀ (d a b : VReg) (s : State), Ready s →
    exec (.vsum2sws d a b) s = .next (advancePc (Source.vsum2sws d a b s))

/-- R149, R187, R188: the 33-bit temporary, saturated after the inner loop. -/
def Obligations.Vsum4shsRunsAsTheSourceLoop : Prop :=
  ∀ (d a b : VReg) (s : State), Ready s →
    exec (.vsum4shs d a b) s = .next (advancePc (Source.vsum4shs d a b s))

/-! ### Encoding -/

/-- R63, R65, R67: every instruction, with every operand at every value, is well-formed and is
what its word decodes to. -/
def Obligations.DecodeOfEncodeIsTheInstruction : Prop :=
  ∀ i : Instr, i.wellFormed = true ∧ decode (encode i) = .ok i

/-- R65: no bit of a word is dropped: a word that decodes is the word of its instruction. -/
def Obligations.EncodeOfDecodeIsTheWord : Prop :=
  ∀ (w : InstrWord) (i : Instr), decode w = .ok i → encode i = w

/-- R63, derived by the spec from R61 and R62: the word as a number, in both formats, and the
fields as slices of the word. -/
def Obligations.WordsAreSumsOfShiftedFields : Prop :=
  (∀ (d a b c : VReg) (xo : BitVec 6), (encodeVA d a b c xo).toNat =
    4 * 2 ^ 26 + d.toNat * 2 ^ 21 + a.toNat * 2 ^ 16 + b.toNat * 2 ^ 11 + c.toNat * 2 ^ 6 +
      xo.toNat) ∧
  (∀ (d a b : VReg) (xo : BitVec 11), (encodeVX d a b xo).toNat =
    4 * 2 ^ 26 + d.toNat * 2 ^ 21 + a.toNat * 2 ^ 16 + b.toNat * 2 ^ 11 + xo.toNat) ∧
  (∀ w : InstrWord,
    fieldOPCD w = w.extractLsb 31 26 ∧ fieldVD w = w.extractLsb 25 21 ∧
    fieldVA w = w.extractLsb 20 16 ∧ fieldVB w = w.extractLsb 15 11 ∧
    fieldVC w = w.extractLsb 10 6 ∧ fieldXO6 w = w.extractLsb 5 0 ∧
    fieldXO11 w = w.extractLsb 10 0) ∧
  (∀ d a b c : VReg,
    encode (.vmhaddshs d a b c) = encodeVA d a b c 32 ∧
    encode (.vmhraddshs d a b c) = encodeVA d a b c 33 ∧
    encode (.vmladduhm d a b c) = encodeVA d a b c 34 ∧
    encode (.vmsumshs d a b c) = encodeVA d a b c 41 ∧
    encode (.vmulesh d a b) = encodeVX d a b 840 ∧
    encode (.vsum4shs d a b) = encodeVX d a b 1608 ∧
    encode (.vsum2sws d a b) = encodeVX d a b 1672 ∧
    encode (.vsumsws d a b) = encodeVX d a b 1928)

/-- R66, R67, R72: the decoder gives an instruction exactly when a row of the opcode map selects
the word; then that row carries its mnemonic and no other row selects it; every other word is
rejected by name. -/
def Obligations.DecoderAgreesWithTheOpcodeMap : Prop :=
  ∀ w : InstrWord,
    (∀ i, decode w = .ok i → ∀ r ∈ opcodeTable, r.selects w = true ↔ r.mnemonic = i.mnemonic) ∧
    ((∃ i, decode w = .ok i) ↔ ∃ r ∈ opcodeTable, r.selects w = true) ∧
    (decode w = .error (.notInScope w) ↔ ∀ r ∈ opcodeTable, r.selects w = false)

/-- Words of 30_encoding.md section 7 and 95_test_vectors.md 2.1, one for each instruction. -/
def Obligations.WorkedEncodingsDecode : Prop :=
  decode 0x10221920#32 = .ok (.vmhaddshs 1 2 3 4) ∧
  decode 0x10A110E1#32 = .ok (.vmhraddshs 5 1 2 3) ∧
  decode 0x13FFFFE2#32 = .ok (.vmladduhm 31 31 31 31) ∧
  decode 0x10611029#32 = .ok (.vmsumshs 3 1 2 0) ∧
  decode 0x10221B48#32 = .ok (.vmulesh 1 2 3) ∧
  decode 0x10221E48#32 = .ok (.vsum4shs 1 2 3) ∧
  decode 0x10221E88#32 = .ok (.vsum2sws 1 2 3) ∧
  decode 0x10000788#32 = .ok (.vsumsws 0 0 0) ∧
  decode 0x10221B08#32 = .error (.notInScope 0x10221B08#32)

/-! ### Fetch and the step -/

/-- R43, the spec's own choice D3 (log entry 3): the word that four bytes of text form, in both
byte orders, the default order, and that no instruction and no step switches it. -/
def Obligations.FetchAssemblesFourBytes : Prop :=
  (∀ (l : Launch) (a : Nat) (b0 b1 b2 b3 : Byte), a % 4 = 0 → a < 2 ^ l.pcBits →
    Memory.read l.text a = some b0 → Memory.read l.text (a + 1) = some b1 →
    Memory.read l.text (a + 2) = some b2 → Memory.read l.text (a + 3) = some b3 →
    fetch l a = some (if l.fetchBigEndian = true then (b0 ++ b1 ++ b2 ++ b3 : BitVec (8 + 8 + 8 + 8))
      else (b3 ++ b2 ++ b1 ++ b0 : BitVec (8 + 8 + 8 + 8)))) ∧
  State.reset.launch.fetchBigEndian = true ∧
  (∀ (i : Instr) (s t : State), exec i s = .next t →
    t.launch.fetchBigEndian = s.launch.fetchBigEndian) ∧
  (∀ s t : State, step s = .next t → t.launch.fetchBigEndian = s.launch.fetchBigEndian)

/-- R42, the spec's own choice D2 (log entry 4): the text is a partial map from multiples of 4
below 2^PC_BITS, a fetch outside it is refused unless the run is over, and no step changes the
text. -/
def Obligations.TextIsFetchedOnlyInItsDomain : Prop :=
  (∀ (l : Launch) (a : Nat) (w : InstrWord), fetch l a = some w →
    a % 4 = 0 ∧ a < 2 ^ l.pcBits) ∧
  (∀ s : State, s.pc % 4 = 0 → fetch s.launch s.pc = none → s.pc ≠ s.launch.endAddr →
    step s = .refused .fetchOutsideText) ∧
  (∀ s t : State, step s = .next t → t.launch.text = s.launch.text ∧
    ∀ a, fetch t.launch a = fetch s.launch a)

/-- R185, the spec's own choices D1, D5, D6: where the four bytes at pc decode to an instruction,
the step is that instruction. The step adds nothing around it: the instruction itself advances pc.
-/
def Obligations.StepRunsTheDecodedInstruction : Prop :=
  ∀ (s : State) (b0 b1 b2 b3 : Byte) (i : Instr),
    s.pc % 4 = 0 → s.pc ≠ s.launch.endAddr → s.pc < 2 ^ s.launch.pcBits →
    textByte s s.pc = some b0 → textByte s (s.pc + 1) = some b1 →
    textByte s (s.pc + 2) = some b2 → textByte s (s.pc + 3) = some b3 →
    decode (wordOfBytes s.launch.fetchBigEndian b0 b1 b2 b3) = .ok i → i.wellFormed = true →
    step s = exec i s

/-- R165, R185, the spec's own choices D1, D5, D6: the checks of a step in their order, each with
what it answers, and the execution when none applies. Each clause is under the negation of those
before it. -/
def Obligations.StepChecksInOrder : Prop :=
  ∀ s : State,
    (s.pc % 4 ≠ 0 → step s = .refused .misalignedPc) ∧
    (s.pc % 4 = 0 → s.pc = s.launch.endAddr → step s = .fault .runOver) ∧
    (s.pc % 4 = 0 → s.pc ≠ s.launch.endAddr →
      (fetch s.launch s.pc = none → step s = .refused .fetchOutsideText) ∧
      ∀ w, fetch s.launch s.pc = some w →
        ((∀ i, decode w ≠ .ok i) → step s = .refused (.notInScope w)) ∧
        ∀ i, decode w = .ok i →
          (s.launch.vecAvailable = false → step s = .refused .vecUnavailable) ∧
          (s.launch.vecAvailable = true → 2 ^ s.launch.pcBits ≤ s.pc + 4 →
            step s = .refused .pcOverflow) ∧
          (Ready s → ∃ t, step s = .next t ∧ exec i s = .next t ∧ t.pc = s.pc + 4))

/-- R161, the spec's own choice D6: the closed list of refusal reasons. -/
def Obligations.RefusalReasonsAreClosed : Prop :=
  ∀ (s : State) (r : Refusal), step s = .refused r →
    (r = .misalignedPc ∧ s.pc % 4 ≠ 0) ∨
    (r = .fetchOutsideText ∧ fetch s.launch s.pc = none) ∨
    (r = .vecUnavailable ∧ s.launch.vecAvailable = false) ∨
    (∃ w, r = .notInScope w ∧ fetch s.launch s.pc = some w ∧ ∀ i, decode w ≠ .ok i) ∨
    (r = .pcOverflow ∧ 2 ^ s.launch.pcBits ≤ s.pc + 4)

/-- R44, the spec's own choice D4: pc stays a multiple of 4, a misaligned launch is refused, and
no data is accessed (no text byte depends on an instruction). -/
def Obligations.PcStaysAligned : Prop :=
  (∀ s t : State, s.pc % 4 = 0 → step s = .next t → t.pc = s.pc + 4 ∧ t.pc % 4 = 0) ∧
  (∀ (l : Launch) (vr : Vector V128 32) (f : Bool), l.entry % 4 ≠ 0 →
    step (State.ofLaunch l vr f) = .refused .misalignedPc) ∧
  (∀ (i : Instr) (s t : State), exec i s = .next t → ∀ a, textByte t a = textByte s a)

/-! ### All instructions -/

/-- R160: no instruction raises an exception under any operand values; where it can run it
completes, and where it cannot the reason is one of the two of R162 and R26. Only the first clause
is R160: that an instruction is refused when the unit is not available and when pc + 4 does not
fit are the spec's own choices D8 and D1 (log entries 9 and 20). -/
def Obligations.InstructionsRaiseNothing : Prop :=
  ∀ (i : Instr) (s : State),
    (∀ f, exec i s ≠ .fault f) ∧
    (Ready s ↔ ∃ t, exec i s = .next t) ∧
    (∀ r, exec i s = .refused r ↔
      (r = .vecUnavailable ∧ s.launch.vecAvailable = false) ∨
      (r = .pcOverflow ∧ s.launch.vecAvailable = true ∧ 2 ^ s.launch.pcBits ≤ s.pc + 4))

/-- R162, the spec's own choice D8 (log entry 9): when `VEC_AVAILABLE` is false every instruction
is refused with `VecUnavailable`, when true none is; the default is true and it is constant for
the run. -/
def Obligations.VecAvailableGatesEveryInstruction : Prop :=
  (∀ (i : Instr) (s : State),
    exec i s = .refused .vecUnavailable ↔ s.launch.vecAvailable = false) ∧
  State.reset.launch.vecAvailable = true ∧
  (∀ s t : State, step s = .next t → t.launch.vecAvailable = s.launch.vecAvailable)

/-- The frame of all eight instructions, read off the constructor: `i.dest` is the only register
written, SAT changes only under the six instructions of the table of 10_state.md R24, and then
only from false to true. -/
def Obligations.InstructionsWriteOnlyVdAndSat : Prop :=
  ∀ (i : Instr) (s t : State), exec i s = .next t →
    KeepsTheRest i.dest s t ∧ (i.writesSat = false → t.sat = s.sat) ∧
      (s.sat = true → t.sat = true)

/-- R28, derived by the spec: an instruction's result depends on its source registers and SAT
alone; the register result does not depend on SAT either (R25). -/
def Obligations.ResultsDependOnSourcesAlone : Prop :=
  ∀ (i : Instr) (s s' t t' : State),
    (∀ r ∈ i.sources, readVR s r = readVR s' r) →
    exec i s = .next t → exec i s' = .next t' →
      readVR t i.dest = readVR t' i.dest ∧ (s.sat = s'.sat → t.sat = t'.sat)

/-- R186, R188: two instructions one after the other: the second reads what the first wrote, and
SAT, once set by either, stays set. -/
def Obligations.SecondInstructionSeesTheFirst : Prop :=
  ∀ (i j : Instr) (s t : State), exec i s = .next t → t.pc + 4 < 2 ^ t.launch.pcBits →
    ∃ u, exec j t = .next u ∧ (t.sat = true → u.sat = true) ∧ u.pc = s.pc + 8 ∧
      (∀ r, r ≠ i.dest → r ≠ j.dest → readVR u r = readVR s r) ∧
      (i.dest ≠ j.dest → readVR u i.dest = readVR t i.dest) ∧
      ∀ (s' : State), Ready s' → (∀ r ∈ j.sources, readVR s' r = readVR t r) →
        ∃ u', exec j s' = .next u' ∧ readVR u' j.dest = readVR u j.dest

/-- R108, R109 (the spec's own reading D17, log entry 15): the note of the vmladduhm page: its
result is the same read as signed. -/
def Obligations.VmladduhmServesSignedIntegers : Prop :=
  ∀ (d a b c : VReg) (s : State), Ready s →
    ∃ t, exec (.vmladduhm d a b c) s = .next t ∧
      ∀ k, (hw (readVR t d) k).toInt =
        Int.bmod ((hw (readVR s a) k).toInt * (hw (readVR s b) k).toInt +
          (hw (readVR s c) k).toInt) 65536

/-- From R100 and R104: on the same operands the rounded result is the unrounded one or one more,
lane by lane. -/
def Obligations.RoundingAddsAtMostOne : Prop :=
  ∀ (d a b c : VReg) (s : State), Ready s →
    ∃ t t', exec (.vmhaddshs d a b c) s = .next t ∧ exec (.vmhraddshs d a b c) s = .next t' ∧
      ∀ k, (hw (readVR t d) k).toInt ≤ (hw (readVR t' d) k).toInt ∧
        (hw (readVR t' d) k).toInt ≤ (hw (readVR t d) k).toInt + 1

/-- R145, derived by the spec: doubleword `i` of vD depends only on doubleword `i` of vA and of
vB. -/
def Obligations.Vsum2swsHalvesAreIndependent : Prop :=
  ∀ (d a b : VReg) (s s' t t' : State),
    exec (.vsum2sws d a b) s = .next t → exec (.vsum2sws d a b) s' = .next t' →
    ∀ i, i = 0 ∨ i = 64 →
      Source.bits (readVR s a) i 64 = Source.bits (readVR s' a) i 64 →
      Source.bits (readVR s b) i 64 = Source.bits (readVR s' b) i 64 →
      Source.bits (readVR t d) i 64 = Source.bits (readVR t' d) i 64

/-- R122, R132, R150 ("Word k of vD depends only on word k of" the sources), said of vmulesh,
vmsumshs and vsum4shs. -/
def Obligations.WordLanesAreIndependent : Prop :=
  ∀ (i : Instr) (s s' t t' : State),
    (∃ d a b c, i = .vmulesh d a b ∨ i = .vmsumshs d a b c ∨ i = .vsum4shs d a b) →
    exec i s = .next t → exec i s' = .next t' →
    ∀ k, (∀ r ∈ i.sources, wd (readVR s r) k = wd (readVR s' r) k) →
      wd (readVR t i.dest) k = wd (readVR t' i.dest) k

/-! ### Registers and their elements -/

/-- R13: elements number from the most significant end, and word `k` holds half words `2k` and
`2k+1`. -/
def Obligations.ElementsNumberFromTheTop : Prop :=
  (∀ (v : V128) (k : Fin 8), hw v k = Source.bits v (16 * k.val) 16) ∧
  (∀ (v : V128) (k : Fin 4), wd v k = Source.bits v (32 * k.val) 32) ∧
  (∀ (v : V128) (k : Fin 4),
    (wd v k).toNat = (hw v (evenHW k)).toNat * 65536 + (hw v (oddHW k)).toNat) ∧
  (∀ k : Fin 4, (evenHW k).val = 2 * k.val ∧ (oddHW k).val = 2 * k.val + 1)

/-- R21, the spec's own reading D19: every field value names a distinct, ordinary, readable and
writable register that shares storage with no other register, nor with SAT, pc or the text. -/
def Obligations.RegistersAreDistinctAndOrdinary : Prop :=
  ∀ (s : State) (r : VReg) (v : V128),
    readVR (writeVR s r v) r = v ∧ KeepsTheRest r s (advancePc (writeVR s r v)) ∧
      (writeVR s r v).sat = s.sat ∧
      (∀ f, readVR (orSat s f) r = readVR s r) ∧ readVR (advancePc s) r = readVR s r

/-! ### Launch, invariant, run -/

/-- R29, R180, the spec's own choice D9: at launch pc is `ENTRY` and every value of the registers
and of SAT is possible. -/
def Obligations.LaunchStartsAtEntry : Prop :=
  (∀ (l : Launch) (vr : Vector V128 32) (f : Bool),
    ∃ s : State, s = State.ofLaunch l vr f ∧ s.pc = l.entry ∧ s.vr = vr ∧ s.sat = f ∧
      s.launch = l) ∧
  State.reset.pc = State.reset.launch.entry

/-- The model's own choices at reset, of which the spec says "any value" or gives no default: the
vector registers and SAT are zero, `ENTRY` is 0, `END` is FFFFFFFC (log entries 5, 6, 7, 8); and
the spec's defaults (log entries 1, 3, 9), with no text placed (log entry 12). -/
def Obligations.ResetHoldsTheLoggedChoices : Prop :=
  (∀ r, readVR State.reset r = 0#128) ∧ State.reset.sat = false ∧
    State.reset.launch.entry = 0 ∧ State.reset.launch.endAddr = 0xFFFFFFFC ∧
    State.reset.launch.pcBits = 32 ∧ State.reset.launch.fetchBigEndian = true ∧
    State.reset.launch.vecAvailable = true ∧ ∀ a, textByte State.reset a = none

/-- The invariant holds at reset, whose launch is made of the spec's defaults and of the model's
own choices of `ENTRY` and `END` (log entries 1, 3, 7, 8, 9). -/
def Obligations.ResetMeetsTheInvariant : Prop := Inv State.reset

/-- R26, R44, R51, the spec's own choices D1, D4, D20 (log entries 1, 3): every step from a state
that meets the invariant gives a state that meets it: pc stays a multiple of 4 that `PC_BITS` bits
hold, the launch stays one the spec admits and its text stays canonical. -/
def Obligations.StepKeepsTheInvariant : Prop :=
  ∀ s t : State, Inv s → step s = .next t → Inv t

/-- R5, R42, R51, R191, the spec's own choices D2, D20 (log entry 2): no step changes a launch
parameter, from any state. -/
def Obligations.StepKeepsTheLaunch : Prop :=
  ∀ (s t : State), step s = .next t → t.launch = s.launch

/-- R24, the spec's own choice D10 (log entry 14): SAT, once set, is set after every further step.
-/
def Obligations.SatIsStickyOverRuns : Prop :=
  ∀ (n : Nat) (s t : State), s.sat = true → run n s = .next t → t.sat = true

/-- R184, R190, the spec's own choices D1, D12 (log entry 10): straight-line code. From an aligned
pc at or below an aligned `END` that fits, with every word on the way one of the eight and the
vector unit available, the run reaches `END` in exactly `(END - pc) / 4` steps, at `pc + 4k` after
`k` of them, and is over there. -/
def Obligations.StraightLineRunsReachEnd : Prop :=
  ∀ s : State, s.launch.vecAvailable = true → s.pc % 4 = 0 → s.launch.endAddr % 4 = 0 →
    s.pc ≤ s.launch.endAddr → s.launch.endAddr < 2 ^ s.launch.pcBits →
    (∀ a, a % 4 = 0 → s.pc ≤ a → a < s.launch.endAddr →
      ∃ w i, fetch s.launch a = some w ∧ decode w = .ok i) →
    (∀ k, k ≤ (s.launch.endAddr - s.pc) / 4 →
      ∃ t, run k s = .next t ∧ t.pc = s.pc + 4 * k ∧ t.launch = s.launch) ∧
    ∃ t, run ((s.launch.endAddr - s.pc) / 4) s = .next t ∧ Final t ∧
      step t = .fault .runOver

/-- R190, the spec's own choice D12 (log entry 10): if `END` lies below pc, the run ends in a
refusal, not in a final state. -/
def Obligations.RunsPastEndAreRefused : Prop :=
  ∀ s : State, s.launch.endAddr < s.pc →
    (∃ n r, run n s = .refused r) ∧ ∀ n f, run n s ≠ .fault f

/-- R184, R26, R190, the spec's own choices D1, D12 (log entry 10): no run goes on for ever: after
at most `2^PC_BITS / 4 + 1` steps it is over or refused. -/
def Obligations.EveryRunEnds : Prop :=
  ∀ s : State, ∃ n, n ≤ 2 ^ s.launch.pcBits / 4 + 1 ∧
    ((∃ r, run n s = .refused r) ∨ run n s = .fault .runOver)
end

