-- ==== Sys2Proof/Laws/Source.lean ====
section
/-!
SUPPORT. Slices of a register as the source writes them (00_scope.md R7): what is read after a
slice is written.
-/

namespace Sys2Proof.Source

open Sys2Proof.Machine

/-- The bits of a slice. -/
theorem getLsbD_bits {m : Nat} (x : BitVec m) (a n j : Nat) :
    (bits x a n).getLsbD j = (decide (j < n) && x.getLsbD (m - a - n + j)) :=
  BitVec.getLsbD_extractLsb' ..

/-- The bits of a register with a slice written. -/
theorem getLsbD_setBits (v : V128) (a : Nat) {n : Nat} (x : BitVec n) (j : Nat)
    (h : a + n ≤ 128) (hj : j < 128) :
    (setBits v a x).getLsbD j =
      if 128 - a - n ≤ j ∧ j < 128 - a then x.getLsbD (j - (128 - a - n)) else v.getLsbD j := by
  simp only [setBits, BitVec.getLsbD_or, BitVec.getLsbD_and, BitVec.getLsbD_not,
    BitVec.getLsbD_shiftLeft, BitVec.getLsbD_setWidth, BitVec.getLsbD_allOnes]
  split_ifs with h1
  · have a1 : ¬ j < 128 - a - n := by omega
    have a2 : j - (128 - a - n) < n := by omega
    have a3 : j - (128 - a - n) < 128 := by omega
    simp [hj, a1, a2, a3]
  · by_cases a1 : j < 128 - a - n
    · simp [hj, a1]
    · have a2 : ¬ j - (128 - a - n) < n := by omega
      have a3 : x.getLsbD (j - (128 - a - n)) = false := BitVec.getLsbD_of_ge _ _ (by omega)
      simp [hj, a1, a2, a3]

/-- The slice just written reads as what was written. -/
theorem bits_setBits_same (v : V128) (a : Nat) {n : Nat} (x : BitVec n) (h : a + n ≤ 128) :
    bits (setBits v a x) a n = x := by
  apply BitVec.eq_of_getLsbD_eq
  intro j hj
  rw [getLsbD_bits, getLsbD_setBits _ _ _ _ h (by omega), if_pos (by omega)]
  simp [hj]

/-- A slice apart from the one written reads as before. -/
theorem bits_setBits_other (v : V128) (a b m : Nat) {n : Nat} (x : BitVec n) (h : a + n ≤ 128)
    (hb : b + m ≤ 128) (hd : b + m ≤ a ∨ a + n ≤ b) : bits (setBits v a x) b m = bits v b m := by
  apply BitVec.eq_of_getLsbD_eq
  intro j hj
  rw [getLsbD_bits, getLsbD_bits, getLsbD_setBits _ _ _ _ h (by omega), if_neg (by omega)]

/-- One assignment of a slice, after a write of the same register and an or into SAT. -/
theorem assign_orSat_writeVR (s : State) (d : VReg) (v : V128) (f : Bool) (a : Nat) {n : Nat}
    (r : BitVec n × Bool) :
    assign (orSat (writeVR s d v) f) d a r =
      orSat (writeVR s d (setBits v a r.1)) (f || r.2) := by
  simp [assign, orSat, writeVR, readVR, Bool.or_assoc]

end Sys2Proof.Source
end

