-- ==== Sys2Proof/Tests/Slice0.lean ====
section
/-!
SUPPORT. The model's own tests. Every expected value is copied from a table of the spec:
95_test_vectors.md (T1 to T36, P1 to P4) and 30_encoding.md section 7. Then, for each obligation
with hypotheses, a state that meets them.
-/

namespace Sys2Proof.Tests

open Sys2Proof.Machine

/-- The reset state with `VR[1]`, `VR[2]`, `VR[3]` and SAT set. -/
def withRegs (a b c : V128) (f : Bool) : State :=
  orSat (writeVR (writeVR (writeVR State.reset 1 a) 2 b) 3 c) f

/-- What a next state holds in a register and in SAT. -/
def shows (r : VReg) : Result → Option (V128 × Bool)
  | .next t => some (readVR t r, t.sat)
  | _ => none

/-- The pc of a next state. -/
def pcOf : Result → Option Nat
  | .next t => some t.pc
  | _ => none

/-- Why a result is a refusal. -/
def refusalOf : Result → Option Refusal
  | .refused r => some r
  | _ => none

/-- Whether a result is the end of the run. -/
def isOver : Result → Bool
  | .fault .runOver => true
  | _ => false

/-- What a decoded word is, if it is one of the eight. -/
def decoded (w : InstrWord) : Option Instr :=
  match decode w with
  | .ok i => some i
  | .error _ => none

/-! ### Well-formedness: every check refuses an ill-formed term -/

/-- R65: no register number is ill-formed, so the check on instructions refuses none. -/
theorem test_every_register_number_is_legal : ∀ r : VReg, r.legal = true := by decide

/-- A well-formed launch, from which each ill-formed one differs in one field. -/
theorem test_default_launch_passes : Launch.default.check = true := by decide

theorem test_zero_width_pc_is_refused :
    ({ Launch.default with pcBits := 0 } : Launch).check = false := by decide

theorem test_misaligned_entry_is_refused :
    ({ Launch.default with entry := 0x102 } : Launch).check = false := by decide

theorem test_misaligned_end_is_refused :
    ({ Launch.default with endAddr := 0x106 } : Launch).check = false := by decide

theorem test_unsorted_text_is_refused :
    ({ Launch.default with text := [(4, 0x10#8), (0, 0x10#8)] } : Launch).check = false := by
  decide

theorem test_repeated_address_is_refused :
    ({ Launch.default with text := [(4, 0x10#8), (4, 0x11#8)] } : Launch).check = false := by
  decide

/-! ### Decoding: words written out from R61, R62, R66 and listed in section 7 of 30_encoding.md -/

/-- OPCD 000100, vD 00001, vA 00010, vB 00011, vC 00100, XO 100000. -/
theorem test_decode_vmhaddshs :
    decoded 0b00010000001000100001100100100000#32 = some (.vmhaddshs 1 2 3 4) := by decide

/-- OPCD 000100, vD 00101, vA 00001, vB 00010, vC 00011, XO 100001. -/
theorem test_decode_vmhraddshs :
    decoded 0b00010000101000010001000011100001#32 = some (.vmhraddshs 5 1 2 3) := by decide

/-- OPCD 000100, all register fields 11111, XO 100010. -/
theorem test_decode_vmladduhm :
    decoded 0b00010011111111111111111111100010#32 = some (.vmladduhm 31 31 31 31) := by decide

/-- OPCD 000100, vD 00011, vA 00001, vB 00010, vC 00000, XO 101001. -/
theorem test_decode_vmsumshs :
    decoded 0b00010000011000010001000000101001#32 = some (.vmsumshs 3 1 2 0) := by decide

/-- OPCD 000100, vD 00001, vA 00010, vB 00011, XO 01101001000. -/
theorem test_decode_vmulesh :
    decoded 0b00010000001000100001101101001000#32 = some (.vmulesh 1 2 3) := by decide

/-- OPCD 000100, vD 00001, vA 00010, vB 00011, XO 11001001000. -/
theorem test_decode_vsum4shs :
    decoded 0b00010000001000100001111001001000#32 = some (.vsum4shs 1 2 3) := by decide

/-- OPCD 000100, vD 00001, vA 00010, vB 00011, XO 11010001000. -/
theorem test_decode_vsum2sws :
    decoded 0b00010000001000100001111010001000#32 = some (.vsum2sws 1 2 3) := by decide

/-- OPCD 000100, vD 00100, vA 00011, vB 00000, XO 11110001000. -/
theorem test_decode_vsumsws :
    decoded 0b00010000100000110000011110001000#32 = some (.vsumsws 4 3 0) := by decide

/-- A VA word is known by its low six bits alone, whatever vC holds (95, 2.1). -/
theorem test_decode_va_with_vc_31 : decoded 0x10221FE0#32 = some (.vmhaddshs 1 2 3 31) := by
  decide

/-- The refused words of 95, 2.1. -/
theorem test_decode_refuses :
    [0x10221923#32, 0x10221928#32, 0x1022191F#32, 0x14221920#32, 0x0C221920#32, 0x10221B49#32,
      0x10221B08#32, 0x10221F08#32, 0x10221E08#32, 0x00000000#32, 0x60000000#32,
      0xFFFFFFFF#32].all (fun w => decoded w == none) = true := by decide

/-- The encoder gives the words of 30_encoding.md section 7. -/
theorem test_encode_worked :
    encode (.vmhaddshs 1 2 3 4) = 0x10221920#32 ∧ encode (.vmhraddshs 1 2 3 4) = 0x10221921#32 ∧
    encode (.vmladduhm 1 2 3 4) = 0x10221922#32 ∧ encode (.vmsumshs 1 2 3 4) = 0x10221929#32 ∧
    encode (.vmulesh 1 2 3) = 0x10221B48#32 ∧ encode (.vsum4shs 1 2 3) = 0x10221E48#32 ∧
    encode (.vsum2sws 1 2 3) = 0x10221E88#32 ∧ encode (.vsumsws 1 2 3) = 0x10221F88#32 := by
  decide

/-- The assembly lines of R69. -/
theorem test_asm :
    (Instr.vmhaddshs 31 31 31 31).asm = "vmhaddshs v31,v31,v31,v31" ∧
    (Instr.vsum2sws 1 2 3).asm = "vsum2sws v1,v2,v3" := by decide

/-- The bytes 10 61 10 29 of P1 in the default order, and the same word's bytes reversed. -/
theorem test_bytes_of_p1 :
    decoded (wordOfBytes true 0x10 0x61 0x10 0x29) = some (.vmsumshs 3 1 2 0) ∧
    decoded (wordOfBytes false 0x29 0x10 0x61 0x10) = some (.vmsumshs 3 1 2 0) := by decide

/-- R67: no word falls under two rows: two rows that agree where both masks look are one row. -/
theorem test_opcode_rows_do_not_overlap :
    opcodeTable.Pairwise fun r q => r.pattern &&& q.mask ≠ q.pattern &&& r.mask := by decide

/-- The table's bits of a row with operand fields zero, as the host asks for them. -/
theorem test_table_words :
    decodeTableWord 32 0x10000348 = some (.vmulesh 0 0 0) ∧
    decodeTableWord 32 0x10000029 = some (.vmsumshs 0 0 0 0) := by decide

/-! ### The instructions: two vectors each -/

/-- T1: saturation high and low, and a product of -1 that the floor keeps at -1. -/
theorem test_vmhaddshs_T1 :
    shows 4 (exec (.vmhaddshs 4 1 2 3)
      (withRegs 0x4000800080007FFF0001FFFF80000000 0x4000800080007FFF000100017FFF1234
        0x00010000FFFF0002000000008000ABCD false)) =
      some (0x20017FFF7FFF7FFF0000FFFF8000ABCD, true) := by decide

/-- T3, with vD the same register as vA. -/
theorem test_vmhaddshs_T3_in_place :
    shows 1 (exec (.vmhaddshs 1 1 2 3)
      (withRegs 0x4000C0000001FFFF7FFF800100038000 0x000100014000400000017FFF2AAB0001
        0x00000000000000000000800000000000 false)) =
      some (0x0000FFFF0000FFFF000080000001FFFF, true) := by decide

/-- T4: the rounding cases. -/
theorem test_vmhraddshs_T4 :
    shows 4 (exec (.vmhraddshs 4 1 2 3)
      (withRegs 0x4000C0000001FFFF7FFF800100038000 0x000100014000400000017FFF2AAB0001
        0x00000000000000000000800000000000 false)) =
      some (0x0001000000010000000180000001FFFF, true) := by decide

/-- T6: no lane saturates and SAT, set before, stays set; vD is vC. -/
theorem test_vmhraddshs_T6_in_place :
    shows 3 (exec (.vmhraddshs 3 1 2 3)
      (withRegs 0x10002000300040005000600070007FFF 0x40004000400040004000400040004000
        0x00100010001000100010001000100010 true)) =
      some (0x08101010181020102810301038104010, true) := by decide

/-- T11: overflow discarded, SAT not set. -/
theorem test_vmladduhm_T11 :
    shows 4 (exec (.vmladduhm 4 1 2 3)
      (withRegs 0xFFFFFFFF010080000003FFFE00000001 0xFFFFFFFF0100000200050003ABCDABCD
        0x0000FFFF000000010007000512345433 false)) =
      some (0x00010000000000010016FFFF12340000, false) := by decide

/-- T12: SAT, set before, is not cleared. -/
theorem test_vmladduhm_T12 :
    shows 2 (exec (.vmladduhm 2 1 2 3)
      (withRegs 0x00010002000300040005000600070008 0x000A0014001E00280032003C00460050
        0x006400C8012C019001F4025802BC0320 true)) =
      some (0x006E00F00186023002EE03C004A605A0, true) := by decide

/-- T14: the odd half words have no effect. -/
theorem test_vmulesh_T14 :
    shows 4 (exec (.vmulesh 4 1 2)
      (withRegs 0x800011117FFF2222FFFF333300034444 0x800055557FFF666600017777FFFB8888 0 false)) =
      some (0x400000003FFF0001FFFFFFFFFFFFFFF1, false) := by decide

/-- T15, with vD the same register as vB. -/
theorem test_vmulesh_T15_in_place :
    shows 2 (exec (.vmulesh 2 1 2)
      (withRegs 0x800000007FFF00000000FFFF0100FFFF 0x7FFF0000800000001234FFFF0100FFFF 0 true)) =
      some (0xC0008000C00080000000000000010000, true) := by decide

/-- T18: one word saturates high, one low. -/
theorem test_vmsumshs_T18 :
    shows 4 (exec (.vmsumshs 4 1 2 3)
      (withRegs 0x000100020003000480008000FFFF0002 0x0005000600070008800080000003FFFC
        0x00000064FFFFFFFF0000000180000005 false)) =
      some (0x00000075000000347FFFFFFF80000000, true) := by decide

/-- T19: partial sums leave the range and come back: no saturation. -/
theorem test_vmsumshs_T19 :
    shows 3 (exec (.vmsumshs 3 1 2 3)
      (withRegs 0x0001FFFFFFFF00018000800080008000 0x0001000100010001800080007FFF7FFF
        0x7FFFFFFF80000000800000007FFFFFFF false)) =
      some (0x7FFFFFFF80000000000000000000FFFF, false) := by decide

/-- T23: a partial sum far outside the range, the final sum -1; words 0 to 2 of vB ignored. -/
theorem test_vsumsws_T23 :
    shows 4 (exec (.vsumsws 4 1 2)
      (withRegs 0x7FFFFFFF7FFFFFFF8000000080000000 0x11111111222222223333333300000001 0 false)) =
      some (0x000000000000000000000000FFFFFFFF, false) := by decide

/-- T25: one past the lower bound. -/
theorem test_vsumsws_T25_in_place :
    shows 1 (exec (.vsumsws 1 1 2)
      (withRegs 0x80000000FFFFFFFF0000000000000000 0xFFFFFFFFFFFFFFFFFFFFFFFF00000000 0 false)) =
      some (0x00000000000000000000000080000000, true) := by decide

/-- T29: each half exactly on its bound: SAT not set. -/
theorem test_vsum2sws_T29 :
    shows 4 (exec (.vsum2sws 4 1 2)
      (withRegs 0x7FFFFFFF0000000180000000FFFFFFFF 0xAAAAAAAAFFFFFFFFBBBBBBBB00000001 0 false)) =
      some (0x000000007FFFFFFF0000000080000000, false) := by decide

/-- T30: one half saturates and SAT is set. -/
theorem test_vsum2sws_T30 :
    shows 2 (exec (.vsum2sws 2 1 2)
      (withRegs 0x7FFFFFFF000000010000000500000006 0x00000000000000000000000000000007 0 false)) =
      some (0x000000007FFFFFFF0000000000000012, true) := by decide

/-- T33: the words that are out of range set SAT. -/
theorem test_vsum4shs_T33 :
    shows 4 (exec (.vsum4shs 4 1 2)
      (withRegs 0x7FFF7FFF800080000001FFFFFFFF0001 0x7FFFFFFF800000007FFFFFFF80000000 0 false)) =
      some (0x7FFFFFFF800000007FFFFFFF80000000, true) := by decide

/-- T34: partial sums out of range and sums on the bounds do not. -/
theorem test_vsum4shs_T34 :
    shows 2 (exec (.vsum4shs 2 1 2)
      (withRegs 0x0001FFFFFFFF00017FFF7FFF80008000 0x7FFFFFFF800000007FFF000180010000 0 false)) =
      some (0x7FFFFFFF800000007FFFFFFF80000000, false) := by decide

/-! ### The step: P1 and the refusals of P4 -/

/-- P1 at launch: its two words as bytes at 1000, its registers, `END` at 1008 (hexadecimal). -/
def p1 : State :=
  { withRegs 0x00010002000300040005000600070008 0x0008000700060005000400030002FFFF 0 false with
    pc := 0x1000
    launch := { Launch.default with
      entry := 0x1000, endAddr := 0x1008
      text := [(0x1000, 0x10), (0x1001, 0x61), (0x1002, 0x10), (0x1003, 0x29),
        (0x1004, 0x10), (0x1005, 0x83), (0x1006, 0x07), (0x1007, 0x88)] } }

/-- P1 after its first step. -/
def p1Second : State :=
  { writeVR p1 3 0x00000016000000260000002600000006 with pc := 0x1004 }

/-- P1, step 1. -/
theorem test_p1_step1 :
    shows 3 (step p1) = some (0x00000016000000260000002600000006, false) ∧
      pcOf (step p1) = some 0x1004 := by decide

/-- P1, step 2. -/
theorem test_p1_step2 :
    shows 4 (step p1Second) = some (0x00000000000000000000000000000068, false) ∧
      pcOf (step p1Second) = some 0x1008 := by decide

/-- P1 is over at `END`. -/
theorem test_p1_over : isOver (step { p1 with pc := 0x1008 }) = true := by decide

/-- P4 (a): a word that is none of the eight. -/
theorem test_p4a_not_in_scope :
    refusalOf (step (({ p1 with pc := 0x2000 } : State).withFetchWord 32 0x10221B08)) =
      some (.notInScope 0x10221B08) := by decide

/-- P4 (b): no text and not `END`. -/
theorem test_p4b_fetch_outside_text :
    refusalOf (step { p1 with pc := 0x2000 }) = some .fetchOutsideText := by decide

/-- P4 (c): a misaligned pc. -/
theorem test_p4c_misaligned_pc :
    refusalOf (step { p1 with pc := 0x102 }) = some .misalignedPc := by decide

/-- P1 with the vector unit not available. -/
def p1Disabled : State := { p1 with launch := { p1.launch with vecAvailable := false } }

/-- P4 (d). -/
theorem test_p4d_vec_unavailable : refusalOf (step p1Disabled) = some .vecUnavailable := by decide

/-- The state of P4 (e): one word at FFFFFFFC, `END` elsewhere. -/
def p4e : State :=
  ({ p1 with pc := 0xFFFFFFFC } : State).withFetchWord 32 0x10000020

/-- P4 (e): the next pc does not fit. -/
theorem test_p4e_pc_overflow : refusalOf (step p4e) = some .pcOverflow := by decide

/-- P4 (f): `ENTRY = END`. -/
theorem test_p4f_zero_steps :
    isOver (step { p1 with launch := { p1.launch with endAddr := 0x1000 } }) = true := by decide

/-- Right after reset nothing is placed; a placed word runs as the first instruction. -/
theorem test_first_instruction_after_reset :
    refusalOf (step State.reset) = some .fetchOutsideText ∧
      pcOf (step (State.reset.withFetchWord 32 0x10000788)) = some 4 := by decide

/-! ### Witnesses: the hypotheses of the obligations can be met -/

/-- Meets the hypothesis of the eight result statements, of the eight statements about the source's
loops, of `VmladduhmServesSignedIntegers` and of `RoundingAddsAtMostOne`, for any operands. -/
theorem witness_ready : Ready p1 ∧ Ready p1Second ∧ Ready State.reset := by decide

/-- At the boundary of `Ready`: the last pc whose successor fits 32 bits, and the first that does
not. -/
theorem witness_ready_boundary :
    Ready { p1 with pc := 0xFFFFFFF8 } ∧ ¬ Ready { p1 with pc := 0xFFFFFFFC } := by decide

/-- An instruction completes in `p1`: for every statement whose hypothesis is `exec i s = next t`
(`InstructionsWriteOnlyVdAndSat`, `PcStaysAligned`, `FetchAssemblesFourBytes`). -/
theorem witness_exec_next (i : Instr) : ∃ t, exec i p1 = .next t := by
  obtain ⟨v, f, -, e⟩ := exec_eq_complete i p1
  exact ⟨_, e.trans (complete_of_ready _ witness_ready.1)⟩

/-- A step completes in `p1`, which meets the invariant: `StepKeepsTheInvariant`,
`StepKeepsTheLaunch`, `TextIsFetchedOnlyInItsDomain`, `PcStaysAligned`,
`VecAvailableGatesEveryInstruction`, `FetchAssemblesFourBytes`. -/
theorem witness_inv_step : Inv p1 ∧ (pcOf (step p1)).isSome = true :=
  ⟨⟨⟨by decide, by decide, by decide, by decide⟩, by decide, by decide⟩, by decide⟩

/-- `EncodeOfDecodeIsTheWord` and the first clause of `DecoderAgreesWithTheOpcodeMap`. -/
theorem witness_decode : decode 0x10221FE0#32 = .ok (.vmhaddshs 1 2 3 31) := by rfl

/-- The bytes, the domain and the word of `FetchAssemblesFourBytes`, `StepRunsTheDecodedInstruction`
and the first clause of `TextIsFetchedOnlyInItsDomain`, at the first and the last word of P1. -/
theorem witness_text :
    p1.pc % 4 = 0 ∧ p1.pc ≠ p1.launch.endAddr ∧ p1.pc < 2 ^ p1.launch.pcBits ∧
    textByte p1 0x1000 = some 0x10 ∧ textByte p1 0x1001 = some 0x61 ∧
    textByte p1 0x1002 = some 0x10 ∧ textByte p1 0x1003 = some 0x29 ∧
    fetch p1.launch 0x1000 = some 0x10611029#32 ∧ fetch p1.launch 0x1004 = some 0x10830788#32 ∧
    fetch p1.launch 0x1008 = none ∧
    decoded (wordOfBytes p1.launch.fetchBigEndian 0x10 0x61 0x10 0x29) =
      some (.vmsumshs 3 1 2 0) ∧ (Instr.vmsumshs 3 1 2 0).wellFormed = true := by decide

/-- `StepChecksInOrder` and `TextIsFetchedOnlyInItsDomain`: a state for each clause (misaligned;
over; no text; not in scope; not available; overflow; the last clause is `witness_inv_step`). -/
theorem witness_step_checks :
    (0x102 % 4 ≠ 0) ∧
    (({ p1 with pc := 0x1008 } : State).pc = p1.launch.endAddr) ∧
    (fetch p1.launch 0x2000 = none) ∧
    (decoded 0x10221B08#32 = none) ∧
    (fetch p1Disabled.launch p1Disabled.pc = some 0x10611029#32 ∧
      p1Disabled.launch.vecAvailable = false) ∧
    (fetch p4e.launch p4e.pc = some 0x10000020#32 ∧ p4e.pc ≠ p4e.launch.endAddr ∧
      p4e.launch.vecAvailable = true ∧ 2 ^ p4e.launch.pcBits ≤ p4e.pc + 4) := by decide

/-- `RefusalReasonsAreClosed`: a refused step. -/
theorem witness_refused : step { p1 with pc := 0x102 } = .refused .misalignedPc := by rfl

/-- The second clause of `PcStaysAligned`: a misaligned `ENTRY`. -/
theorem witness_misaligned_entry : ({ Launch.default with entry := 0x102 } : Launch).entry % 4 ≠ 0 := by
  decide

/-- `InstructionsWriteOnlyVdAndSat` and `SatIsStickyOverRuns`: an instruction that does not write
SAT, and a state with SAT set from which a run of one step exists. -/
theorem witness_sat :
    (Instr.vmulesh 1 2 3).writesSat = false ∧ (orSat p1 true).sat = true ∧
      (pcOf (step (orSat p1 true))).isSome = true := by decide

/-- `ResultsDependOnSourcesAlone`: two states that differ outside the sources. -/
theorem witness_same_sources :
    (∀ r ∈ (Instr.vmulesh 4 1 2).sources, readVR p1 r = readVR (writeVR p1 3 7) r) ∧
      p1 ≠ writeVR p1 3 7 ∧ p1.sat = (writeVR p1 3 7).sat ∧ Ready (writeVR p1 3 7) := by decide

/-- `SecondInstructionSeesTheFirst`: the second word of P1 after its first. -/
theorem witness_second_instruction :
    shows 3 (exec (.vmsumshs 3 1 2 0) p1) =
      some (0x00000016000000260000002600000006, false) ∧
    pcOf (exec (.vmsumshs 3 1 2 0) p1) = some 0x1004 ∧ 0x1004 + 4 < 2 ^ p1.launch.pcBits := by
  decide

/-- Another state than `p1` that agrees with it on the second half of `VR[1]` and of `VR[2]`. -/
def p1Other : State := writeVR p1 1 0x11112222333344440005000600070008

/-- `Vsum2swsHalvesAreIndependent` (`i = 64`; for `i = 0` any state with itself) and
`WordLanesAreIndependent` (`k = 2, 3`): states that differ in the other lanes. -/
theorem witness_lanes :
    p1 ≠ p1Other ∧ Ready p1Other ∧
    Source.bits (readVR p1 1) 64 64 = Source.bits (readVR p1Other 1) 64 64 ∧
    Source.bits (readVR p1 2) 64 64 = Source.bits (readVR p1Other 2) 64 64 ∧
    Source.bits (readVR p1 1) 0 64 = Source.bits (readVR p1 1) 0 64 ∧
    (∀ r ∈ (Instr.vsum4shs 4 1 2).sources, wd (readVR p1 r) 2 = wd (readVR p1Other r) 2) := by
  decide

/-- `StraightLineRunsReachEnd`: P1 meets every hypothesis. -/
theorem witness_straight_line :
    p1.launch.vecAvailable = true ∧ p1.pc % 4 = 0 ∧ p1.launch.endAddr % 4 = 0 ∧
    p1.pc ≤ p1.launch.endAddr ∧ p1.launch.endAddr < 2 ^ p1.launch.pcBits ∧
    ∀ a, a % 4 = 0 → p1.pc ≤ a → a < p1.launch.endAddr →
      ∃ w i, fetch p1.launch a = some w ∧ decode w = .ok i := by
  refine ⟨by decide, by decide, by decide, by decide, by decide, fun a h4 hl hu => ?_⟩
  have hl' : 0x1000 ≤ a := hl
  have hu' : a < 0x1008 := hu
  obtain rfl | rfl : a = 0x1000 ∨ a = 0x1004 := by omega
  · exact ⟨0x10611029#32, .vmsumshs 3 1 2 0, by decide, rfl⟩
  · exact ⟨0x10830788#32, .vsumsws 4 3 0, by decide, rfl⟩

/-- `RunsPastEndAreRefused`: a state past its `END`. -/
theorem witness_past_end : ({ p1 with pc := 0x100C } : State).launch.endAddr < 0x100C := by decide

end Sys2Proof.Tests
end

section
/-!
The elements of a vector register (00_scope.md R13, R14) against the source's numbering of bits
(R6, R7), and a word element as two half-word elements.
-/

namespace Sys2Proof.Machine

@[simp] theorem evenHW_val (k : Fin 4) : (evenHW k).val = 2 * k.val := rfl
@[simp] theorem oddHW_val (k : Fin 4) : (oddHW k).val = 2 * k.val + 1 := rfl

/-- R14's half-word element is the source's slice (R7): both start at bit `112 - 16k`. -/
theorem hw_eq_bits (v : V128) (k : Fin 8) : hw v k = Source.bits v (16 * k.val) 16 :=
  congrArg (v.extractLsb' · 16) (Nat.sub_right_comm 128 16 (16 * k.val))

/-- R14's word element is the source's slice (R7): both start at bit `96 - 32k`. -/
theorem wd_eq_bits (v : V128) (k : Fin 4) : wd v k = Source.bits v (32 * k.val) 32 :=
  congrArg (v.extractLsb' · 32) (Nat.sub_right_comm 128 32 (32 * k.val))

/-- A word element is its two half-word elements, the even-numbered one on top (R13). -/
theorem wd_eq_append (v : V128) (k : Fin 4) :
    wd v k = hw v (evenHW k) ++ hw v (oddHW k) := by
  have adjacent : 112 - 16 * (evenHW k).val = 112 - 16 * (oddHW k).val + 16 := by
    rw [evenHW_val, oddHW_val]; omega
  have start : 112 - 16 * (oddHW k).val = 96 - 32 * k.val := by
    rw [oddHW_val]; omega
  unfold hw wd
  rw [BitVec.extractLsb'_append_extractLsb'_eq_extractLsb' adjacent, start]

/-- The number a word element holds, from the numbers of its two half words (R13). -/
theorem toNat_wd (v : V128) (k : Fin 4) :
    (wd v k).toNat = (hw v (evenHW k)).toNat * 65536 + (hw v (oddHW k)).toNat := by
  rw [wd_eq_append, BitVec.toNat_append, ← Nat.shiftLeft_add_eq_or_of_lt (hw v (oddHW k)).isLt,
    Nat.shiftLeft_eq]

/-- Settles O37: each element is the source's slice, and a word is its two half words appended. -/
theorem elementsNumberFromTheTop : Obligations.ElementsNumberFromTheTop :=
  ⟨hw_eq_bits, wd_eq_bits, toNat_wd, fun k => ⟨evenHW_val k, oddHW_val k⟩⟩

end Sys2Proof.Machine
end

section
/-!
What an instruction writes is fixed by its source registers (10_state.md R25, R28).
-/

namespace Sys2Proof.Machine

/-- Agreement on the sources of a VA-form instruction is agreement on three registers. -/
theorem agree_three {s s' : State} {a b c : VReg}
    (h : ∀ r ∈ [a, b, c], readVR s r = readVR s' r) :
    readVR s a = readVR s' a ∧ readVR s b = readVR s' b ∧ readVR s c = readVR s' c := by
  simpa using h

/-- Agreement on the sources of a VX-form instruction is agreement on two registers. -/
theorem agree_two {s s' : State} {a b : VReg} (h : ∀ r ∈ [a, b], readVR s r = readVR s' r) :
    readVR s a = readVR s' a ∧ readVR s b = readVR s' b := by
  simpa using h

/-- In two states that agree on its sources an instruction writes the same register value and ors
the same flag into SAT (R28): `exec_eq_complete` for both states at once. -/
theorem exec_eq_complete_of_same_sources (i : Instr) {s s' : State}
    (h : ∀ r ∈ i.sources, readVR s r = readVR s' r) :
    ∃ (v : V128) (f : Bool), exec i s = complete s (orSat (writeVR s i.dest v) f) ∧
      exec i s' = complete s' (orSat (writeVR s' i.dest v) f) := by
  cases i with
  | vmhaddshs d a b c =>
    obtain ⟨ha, hb, hc⟩ := agree_three h
    exact ⟨_, _, rfl, by rw [ha, hb, hc]; rfl⟩
  | vmhraddshs d a b c =>
    obtain ⟨ha, hb, hc⟩ := agree_three h
    exact ⟨_, _, rfl, by rw [ha, hb, hc]; rfl⟩
  | vmladduhm d a b c =>
    obtain ⟨ha, hb, hc⟩ := agree_three h
    exact ⟨_, false, by rw [orSat_false]; rfl, by rw [orSat_false, ha, hb, hc]; rfl⟩
  | vmulesh d a b =>
    obtain ⟨ha, hb⟩ := agree_two h
    exact ⟨_, false, by rw [orSat_false]; rfl, by rw [orSat_false, ha, hb]; rfl⟩
  | vmsumshs d a b c =>
    obtain ⟨ha, hb, hc⟩ := agree_three h
    exact ⟨_, _, rfl, by rw [ha, hb, hc]; rfl⟩
  | vsumsws d a b =>
    obtain ⟨ha, hb⟩ := agree_two h
    exact ⟨_, _, rfl, by rw [ha, hb]; rfl⟩
  | vsum2sws d a b =>
    obtain ⟨ha, hb⟩ := agree_two h
    exact ⟨_, _, rfl, by rw [ha, hb]; rfl⟩
  | vsum4shs d a b =>
    obtain ⟨ha, hb⟩ := agree_two h
    exact ⟨_, _, rfl, by rw [ha, hb]; rfl⟩

/-- Settles O31: both runs write one value and or one flag into SAT. -/
theorem resultsDependOnSourcesAlone : Obligations.ResultsDependOnSourcesAlone := by
  intro i s s' t t' h ht ht'
  obtain ⟨v, f, e, e'⟩ := exec_eq_complete_of_same_sources i h
  rw [e] at ht
  rw [e'] at ht'
  obtain ⟨-, rfl⟩ := complete_next ht
  obtain ⟨-, rfl⟩ := complete_next ht'
  exact ⟨by simp, fun hsat => by simp [hsat]⟩

end Sys2Proof.Machine
end

section
/-!
The frame of an instruction (10_state.md R24, R26, R40): beside its destination register and SAT
it changes only pc.
-/

namespace Sys2Proof.Machine

/-- One write of `d`, one or into SAT and the advance of pc keep the rest of the state. -/
theorem keepsTheRest_writeVR_orSat (s : State) (d : VReg) (v : V128) (f : Bool) :
    Claims.KeepsTheRest d s (advancePc (orSat (writeVR s d v) f)) := by
  have registers : ∀ r, r ≠ d →
      readVR (advancePc (orSat (writeVR s d v) f)) r = readVR s r :=
    fun _ hr => readVR_writeVR_other s v hr
  exact ⟨registers, by simp, by simp, by simp⟩

/-- Settles O30: by `exec_next` the next state is such an effect, with the flag `false` where the
table of R24 has no SAT. -/
theorem instructionsWriteOnlyVdAndSat : Obligations.InstructionsWriteOnlyVdAndSat := by
  intro i s t h
  obtain ⟨-, v, f, hf, rfl⟩ := exec_next h
  refine ⟨keepsTheRest_writeVR_orSat s i.dest v f, ?_, ?_⟩
  · intro hw
    simp [hf hw]
  · intro hs
    simp [hs]

end Sys2Proof.Machine
end

section
/-!
Decoder and encoder are inverse to each other (30_encoding.md R63, R65, R67): the decoder's answer
on every encoded word, and a word of primary opcode 4 rebuilt from its own fields.
-/

namespace Sys2Proof

/-- The decoder on the word of an instruction (R67): the VX-form extended opcodes end in none of
the VA-form ones, so each branch of the decoder is reached. -/
@[simp] theorem decode_encode (i : Instr) : decode (encode i) = .ok i := by
  cases i with
  | vmhaddshs d a b c => simp [encode, decode, fields_encodeVA]
  | vmhraddshs d a b c => simp [encode, decode, fields_encodeVA]
  | vmladduhm d a b c => simp [encode, decode, fields_encodeVA]
  | vmulesh d a b => simp [encode, decode, fields_encodeVX]
  | vmsumshs d a b c => simp [encode, decode, fields_encodeVA]
  | vsumsws d a b => simp [encode, decode, fields_encodeVX]
  | vsum2sws d a b => simp [encode, decode, fields_encodeVX]
  | vsum4shs d a b => simp [encode, decode, fields_encodeVX]

/-- A word of primary opcode 4 is the VA-form word of its fields (R61). -/
theorem encodeVA_of_fields {w : InstrWord} {xo : BitVec 6} (opcd : fieldOPCD w = 4#6)
    (hxo : fieldXO6 w = xo) :
    encodeVA (fieldVD w) (fieldVA w) (fieldVB w) (fieldVC w) xo = w := by
  rw [encodeVA, ← opcd, ← hxo, fieldOPCD, fieldVD, fieldVA, fieldVB, fieldVC, fieldXO6]
  simp only [BitVec.extractLsb'_append_extractLsb'_eq_extractLsb', BitVec.extractLsb'_eq_self]

/-- A word of primary opcode 4 is the VX-form word of its fields (R62). -/
theorem encodeVX_of_fields {w : InstrWord} {xo : BitVec 11} (opcd : fieldOPCD w = 4#6)
    (hxo : fieldXO11 w = xo) :
    encodeVX (fieldVD w) (fieldVA w) (fieldVB w) xo = w := by
  rw [encodeVX, ← opcd, ← hxo, fieldOPCD, fieldVD, fieldVA, fieldVB, fieldXO11]
  simp only [BitVec.extractLsb'_append_extractLsb'_eq_extractLsb', BitVec.extractLsb'_eq_self]

/-- The encoder on what the decoder gives (R65): on each branch the primary and the extended opcode
are the instruction's own, and the fields are its operands. -/
theorem encode_of_decode {w : InstrWord} {i : Instr} (h : decode w = .ok i) : encode i = w := by
  unfold decode at h
  split at h
  · cases h
  next opcd =>
  have opcd := not_not.mp opcd
  split_ifs at h with h32 h33 h34 h41 h840 h1608 h1672 h1928 <;> cases h
  · exact encodeVA_of_fields opcd h32
  · exact encodeVA_of_fields opcd h33
  · exact encodeVA_of_fields opcd h34
  · exact encodeVA_of_fields opcd h41
  · exact encodeVX_of_fields opcd h840
  · exact encodeVX_of_fields opcd h1608
  · exact encodeVX_of_fields opcd h1672
  · exact encodeVX_of_fields opcd h1928

/-- The decoder rejects exactly the words for which it has no instruction (R72). -/
theorem decode_eq_notInScope_iff (w : InstrWord) :
    decode w = .error (.notInScope w) ↔ ¬ ∃ i, decode w = .ok i := by
  cases h : decode w with
  | ok i => simp
  | error r => simp [decode_error h]

/-- Every register number is legal, so every instruction is well-formed (R65). -/
theorem wellFormed_all (i : Instr) : i.wellFormed = true :=
  List.all_eq_true.mpr fun r _ => Laws.OpcodeMap.legal_all r

/-- Settles O17: the decoder on the encoder's word, constructor by constructor. -/
theorem decodeOfEncodeIsTheInstruction : Obligations.DecodeOfEncodeIsTheInstruction :=
  fun i => ⟨wellFormed_all i, decode_encode i⟩

/-- Settles O18: the encoder puts the fields back in their places. -/
theorem encodeOfDecodeIsTheWord : Obligations.EncodeOfDecodeIsTheWord :=
  fun _ _ => encode_of_decode

end Sys2Proof
end

section
/-!
The word of an instruction as a number (30_encoding.md R63).
-/

namespace Sys2Proof

/-- A field put below a bit vector shifts it up and is added to it. -/
theorem toNat_append_eq_mul_add {m n : Nat} (x : BitVec m) (y : BitVec n) :
    (x ++ y).toNat = x.toNat * 2 ^ n + y.toNat := by
  rw [BitVec.toNat_append, ← Nat.shiftLeft_add_eq_or_of_lt y.isLt, Nat.shiftLeft_eq]

/-- A VA-form word as the sum of its shifted fields. -/
theorem toNat_encodeVA (d a b c : VReg) (xo : BitVec 6) :
    (encodeVA d a b c xo).toNat =
      4 * 2 ^ 26 + d.toNat * 2 ^ 21 + a.toNat * 2 ^ 16 + b.toNat * 2 ^ 11 + c.toNat * 2 ^ 6 +
        xo.toNat := by
  have horner : (encodeVA d a b c xo).toNat =
      ((((4 * 2 ^ 5 + d.toNat) * 2 ^ 5 + a.toNat) * 2 ^ 5 + b.toNat) * 2 ^ 5 + c.toNat) * 2 ^ 6 +
        xo.toNat := by
    simp only [encodeVA, toNat_append_eq_mul_add]; rfl
  rw [horner]
  ring

/-- A VX-form word as the sum of its shifted fields. -/
theorem toNat_encodeVX (d a b : VReg) (xo : BitVec 11) :
    (encodeVX d a b xo).toNat =
      4 * 2 ^ 26 + d.toNat * 2 ^ 21 + a.toNat * 2 ^ 16 + b.toNat * 2 ^ 11 + xo.toNat := by
  have horner : (encodeVX d a b xo).toNat =
      (((4 * 2 ^ 5 + d.toNat) * 2 ^ 5 + a.toNat) * 2 ^ 5 + b.toNat) * 2 ^ 11 + xo.toNat := by
    simp only [encodeVX, toNat_append_eq_mul_add]; rfl
  rw [horner]
  ring

/-- Settles O19: the two sums; the slices and the extended opcodes are the definitions' own. -/
theorem wordsAreSumsOfShiftedFields : Obligations.WordsAreSumsOfShiftedFields :=
  ⟨toNat_encodeVA, toNat_encodeVX, fun _ => ⟨rfl, rfl, rfl, rfl, rfl, rfl, rfl⟩,
    fun _ _ _ _ => ⟨rfl, rfl, rfl, rfl, rfl, rfl, rfl, rfl⟩⟩

end Sys2Proof
end

section
/-!
The rows of the opcode map select exactly the words of the eight instructions (30_encoding.md R66).
-/

namespace Sys2Proof.Laws.OpcodeMap

/-- The law of the opcode map for every instruction. -/
theorem statement (i : Instr) : Statement i := by
  cases i with
  | vmhaddshs d a b c => exact vmhaddshs d a b c
  | vmhraddshs d a b c => exact vmhraddshs d a b c
  | vmladduhm d a b c => exact vmladduhm d a b c
  | vmulesh d a b => exact vmulesh d a b
  | vmsumshs d a b c => exact vmsumshs d a b c
  | vsumsws d a b => exact vsumsws d a b
  | vsum2sws d a b => exact vsum2sws d a b
  | vsum4shs d a b => exact vsum4shs d a b

/-- The row that carries a mnemonic selects the instruction's word, and no other row does. -/
theorem selects_encode_iff (i : Instr) {r : OpcodeRow} (hr : r ∈ opcodeTable) :
    r.selects (encode i) = true ↔ r.mnemonic = i.mnemonic :=
  (statement i).2 r hr

/-- Every mnemonic has a row. -/
theorem exists_row (i : Instr) : ∃ r ∈ opcodeTable, r.mnemonic = i.mnemonic := by
  cases i <;> simp [opcodeTable, Instr.mnemonic]

/-- A mask that covers a field lets the pattern fix that field. -/
theorem field_of_masked {w mask pattern : InstrWord} (h : w &&& mask = pattern) (start len : Nat)
    (covers : mask.extractLsb' start len = BitVec.allOnes len) :
    w.extractLsb' start len = pattern.extractLsb' start len := by
  rw [← h, BitVec.extractLsb'_and, covers, BitVec.and_allOnes]

/-- A word under the VA mask is the VA-form word of the pattern's extended opcode. -/
theorem encodeVA_of_masked {w pattern : InstrWord} (h : w &&& 0xFC00003F#32 = pattern)
    (opcd : fieldOPCD pattern = 4#6) :
    encodeVA (fieldVD w) (fieldVA w) (fieldVB w) (fieldVC w) (fieldXO6 pattern) = w :=
  encodeVA_of_fields ((field_of_masked h 26 6 (by decide)).trans opcd)
    (field_of_masked h 0 6 (by decide))

/-- A word under the VX mask is the VX-form word of the pattern's extended opcode. -/
theorem encodeVX_of_masked {w pattern : InstrWord} (h : w &&& 0xFC0007FF#32 = pattern)
    (opcd : fieldOPCD pattern = 4#6) :
    encodeVX (fieldVD w) (fieldVA w) (fieldVB w) (fieldXO11 pattern) = w :=
  encodeVX_of_fields ((field_of_masked h 26 6 (by decide)).trans opcd)
    (field_of_masked h 0 11 (by decide))

/-- A word that a row selects is the word of an instruction. -/
theorem exists_encode_of_selects {r : OpcodeRow} {w : InstrWord} (hr : r ∈ opcodeTable)
    (h : r.selects w = true) : ∃ i, encode i = w := by
  have masked : w &&& r.mask = r.pattern := beq_iff_eq.mp h
  simp only [opcodeTable, List.mem_cons, List.not_mem_nil, or_false] at hr
  rcases hr with rfl | rfl | rfl | rfl | rfl | rfl | rfl | rfl
  · exact ⟨.vmhaddshs .., encodeVA_of_masked masked (by decide)⟩
  · exact ⟨.vmhraddshs .., encodeVA_of_masked masked (by decide)⟩
  · exact ⟨.vmladduhm .., encodeVA_of_masked masked (by decide)⟩
  · exact ⟨.vmsumshs .., encodeVA_of_masked masked (by decide)⟩
  · exact ⟨.vmulesh .., encodeVX_of_masked masked (by decide)⟩
  · exact ⟨.vsum4shs .., encodeVX_of_masked masked (by decide)⟩
  · exact ⟨.vsum2sws .., encodeVX_of_masked masked (by decide)⟩
  · exact ⟨.vsumsws .., encodeVX_of_masked masked (by decide)⟩

/-- The decoder gives an instruction exactly when a row selects the word (R66, R67). -/
theorem decodes_iff_selected (w : InstrWord) :
    (∃ i, decode w = .ok i) ↔ ∃ r ∈ opcodeTable, r.selects w = true := by
  constructor
  · rintro ⟨i, hi⟩
    obtain ⟨r, hr, name⟩ := exists_row i
    exact ⟨r, hr, encode_of_decode hi ▸ (selects_encode_iff i hr).mpr name⟩
  · rintro ⟨r, hr, h⟩
    obtain ⟨i, rfl⟩ := exists_encode_of_selects hr h
    exact ⟨i, decode_encode i⟩

/-- Settles O20: a word that decodes is an encoded word, and so is a word that a row selects. -/
theorem decoderAgreesWithTheOpcodeMap : Obligations.DecoderAgreesWithTheOpcodeMap := by
  intro w
  refine ⟨?_, decodes_iff_selected w, ?_⟩
  · intro i hi r hr
    rw [← encode_of_decode hi]
    exact selects_encode_iff i hr
  · rw [decode_eq_notInScope_iff, decodes_iff_selected]
    simp

end Sys2Proof.Laws.OpcodeMap
end

section
/-!
The source's fixed-width arithmetic as exact integers (00_scope.md R8 to R11, R14): the product of
two half words, the leading bits of a temporary, and saturation. Each temporary of the source is
wide enough that nothing wraps (40_multiply_add.md R101, R105).
-/

namespace Sys2Proof.Source

open Sys2Proof.Machine

/-- `SIToSIsat` of a temporary (R10) is `sat_N` of the integer it holds (R14). -/
theorem siToSIsat_eq_satS {m n : Nat} (x : BitVec m) (h : n ≤ m) :
    siToSIsat x n = satS n x.toInt := by
  have half_pos : (0 : Int) < 2 ^ (n - 1) := by positivity
  unfold siToSIsat satS minInt maxInt
  split_ifs with high low
  · rw [min_eq_right (le_max_of_le_left high.le), decide_eq_true (.inl high)]
  · rw [max_eq_right low.le, min_eq_left (by omega), decide_eq_true (.inr low)]
  · rw [max_eq_left (not_lt.mp low), min_eq_left (not_lt.mp high), decide_eq_false (by tauto),
      ← BitVec.signExtend_eq_setWidth_of_le x h, BitVec.signExtend]

/-- The leading `n` bits of a temporary hold the floor of its value over the weight of bit `n-1`. -/
theorem toInt_bits_leading {n j : Nat} (x : BitVec (n + j)) (hn : 0 < n) :
    (bits x 0 n).toInt = x.toInt / 2 ^ j := by
  have parts : bits x 0 n ++ x.extractLsb' 0 j = x := by
    rw [bits, show n + j - 0 - n = 0 + j by omega,
      BitVec.extractLsb'_append_extractLsb'_eq_extractLsb' rfl, BitVec.extractLsb'_eq_self]
  have value : x.toInt = 2 ^ j * (bits x 0 n).toInt + (x.extractLsb' 0 j).toNat := by
    conv_lhs => rw [← parts]
    rw [BitVec.toInt_append, if_neg (by simpa using hn.ne')]
  have low : ((x.extractLsb' 0 j).toNat : Int) < 2 ^ j := by exact_mod_cast BitVec.isLt _
  rw [value, Int.mul_add_ediv_left _ _ (by positivity),
    Int.ediv_eq_zero_of_lt (Int.natCast_nonneg _) low, add_zero]

/-- The product of two half words lies within 2^30. -/
theorem product_bounds (x y : HalfWord) :
    -1073741824 ≤ x.toInt * y.toInt ∧ x.toInt * y.toInt ≤ 1073741824 :=
  ⟨BitVec.le_toInt_mul_toInt, BitVec.toInt_mul_toInt_le⟩

/-- The source's 32-bit product of two half words is exact (R101). -/
theorem toInt_product (x y : HalfWord) :
    (x.signExtend 32 * y.signExtend 32).toInt = x.toInt * y.toInt := by
  obtain ⟨low, high⟩ := product_bounds x y
  rw [BitVec.toInt_mul, BitVec.toInt_signExtend_of_le (by decide),
    BitVec.toInt_signExtend_of_le (by decide)]
  exact Int.bmod_eq_of_le_mul_two (by norm_num; omega) (by norm_num; omega)

/-- A sum that its width can hold is exact. -/
theorem toInt_add_of_bounds {w : Nat} (x y : BitVec w) (low : -2 ^ w ≤ (x.toInt + y.toInt) * 2)
    (high : (x.toInt + y.toInt) * 2 < 2 ^ w) : (x + y).toInt = x.toInt + y.toInt := by
  rw [BitVec.toInt_add]
  exact Int.bmod_eq_of_le_mul_two (by push_cast; exact low) (by push_cast; exact high)

end Sys2Proof.Source
end

section
/-!
The source's in-place loop (00_scope.md R12) as one write. A loop whose iteration reads, of every
register, only the slice it then writes leaves what reading all sources first leaves
(70_reset_and_hazards.md R187), and the or into SAT slice by slice is one or of all flags (R188).
-/

namespace Sys2Proof.Source

open Sys2Proof.Machine

/-- What an iteration writes depends on no register bit outside the iteration's own slice. -/
def ReadsOwnSlice {w : Nat} (g : State → Nat → BitVec w × Bool) : Prop :=
  ∀ (s t : State) (i : Nat),
    (∀ r, bits (readVR t r) i w = bits (readVR s r) i w) → g t i = g s i

/-- The loop's invariant: `t` is `s` with the first `n` slices of `d` written, the slices after
them as they were, and the flags of those written in SAT. -/
def SlicesWritten {w : Nat} (g : State → Nat → BitVec w × Bool) (d : VReg) (s : State) (n : Nat)
    (t : State) : Prop :=
  ∃ v f, t = orSat (writeVR s d v) f ∧
    (∀ k < n, bits v (w * k) w = (g s (w * k)).1) ∧
    (∀ k ≥ n, w * (k + 1) ≤ 128 → bits v (w * k) w = bits (readVR s d) (w * k) w) ∧
    (f = true ↔ ∃ k < n, (g s (w * k)).2 = true)

/-- Before the loop no slice is written. -/
theorem slicesWritten_zero {w : Nat} (g : State → Nat → BitVec w × Bool) (d : VReg) (s : State) :
    SlicesWritten g d s 0 s :=
  ⟨readVR s d, false, by simp, by simp, by simp, by simp⟩

/-- One iteration writes the next slice: it reads what `s` held there (R187). -/
theorem slicesWritten_succ {w : Nat} {g : State → Nat → BitVec w × Bool} (hg : ReadsOwnSlice g)
    {d : VReg} {s t : State} {n : Nat} (fits : w * (n + 1) ≤ 128) (h : SlicesWritten g d s n t) :
    SlicesWritten g d s (n + 1) (assign t d (w * n) (g t (w * n))) := by
  obtain ⟨v, f, rfl, done, todo, flags⟩ := h
  have fits' : w * n + w ≤ 128 := fits
  have same : g (orSat (writeVR s d v) f) (w * n) = g s (w * n) := by
    refine hg _ _ _ fun r => ?_
    rw [readVR_orSat, readVR_writeVR]
    split_ifs with hr
    · rw [hr, todo n le_rfl fits]
    · rfl
  rw [same, assign_orSat_writeVR]
  refine ⟨_, _, rfl, fun k hk => ?_, fun k hk hfit => ?_, ?_⟩
  · obtain hk | rfl := Nat.lt_succ_iff_lt_or_eq.mp hk
    · have before : w * k + w ≤ w * n := Nat.mul_le_mul_left w hk
      rw [bits_setBits_other _ _ _ _ _ fits' (by omega) (.inl before), done k hk]
    · exact bits_setBits_same _ _ _ fits'
  · have after : w * n + w ≤ w * k := Nat.mul_le_mul_left w hk
    have hfit' : w * k + w ≤ 128 := hfit
    rw [bits_setBits_other _ _ _ _ _ fits' hfit' (.inr after), todo k (by omega) hfit]
  · rw [Bool.or_eq_true, flags]
    simp only [Nat.lt_succ_iff_lt_or_eq, or_and_right, exists_or, exists_eq_left]

/-- The loop's first `n` iterations write the first `n` slices. -/
theorem slicesWritten_foldl {w : Nat} {g : State → Nat → BitVec w × Bool} (hg : ReadsOwnSlice g)
    (d : VReg) (s : State) {n : Nat} (fits : w * n ≤ 128) :
    SlicesWritten g d s n
      (((List.range n).map (w * ·)).foldl (fun t i => assign t d i (g t i)) s) := by
  induction n with
  | zero => exact slicesWritten_zero g d s
  | succ n ih =>
    have earlier := ih (le_trans (Nat.mul_le_mul_left w n.le_succ) fits)
    rw [List.range_succ, List.map_append, List.foldl_append]
    exact slicesWritten_succ hg fits earlier

/-- A loop over half words is one write of eight lanes and one or of their flags. -/
theorem doLoop_eq_writeSatHW {g : State → Nat → HalfWord × Bool} (hg : ReadsOwnSlice g)
    (d : VReg) (s : State) :
    doLoop 127 16 (fun t i => assign t d i (g t i)) s =
      writeSatHW s d fun k => g s (16 * k.val) := by
  obtain ⟨v, f, state, lanes, -, flags⟩ := slicesWritten_foldl hg d s (n := 8) (by decide)
  have register : v = packHW fun k : Fin 8 => (g s (16 * k.val)).1 :=
    eq_of_hw fun k => by rw [hw_packHW, hw_eq_bits, lanes k k.isLt]
  have sat : f = anyLane fun k : Fin 8 => (g s (16 * k.val)).2 := by
    rw [Bool.eq_iff_iff, flags, anyLane_eq_true, Fin.exists_iff]
    simp only [exists_prop]
  rw [writeSatHW, ← register, ← sat]
  exact state

/-- `doLoop_eq_writeSatHW` for a body that reads one half word of each of three registers. -/
theorem doLoop_lanes (lane : HalfWord → HalfWord → HalfWord → HalfWord × Bool)
    (d a b c : VReg) (s : State) :
    doLoop 127 16 (fun t i => assign t d i
        (lane (bits (readVR t a) i 16) (bits (readVR t b) i 16) (bits (readVR t c) i 16))) s =
      writeSatHW s d fun k =>
        lane (hw (readVR s a) k) (hw (readVR s b) k) (hw (readVR s c) k) := by
  simp only [hw_eq_bits]
  exact doLoop_eq_writeSatHW
    (g := fun t i =>
      lane (bits (readVR t a) i 16) (bits (readVR t b) i 16) (bits (readVR t c) i 16))
    (fun _ _ _ h => by simp only [h]) d s

end Sys2Proof.Source
end

section
/-!
vmhaddshs, vmhraddshs and vmladduhm (40_multiply_add.md): the lanes as integers, and the lanes of
the source's pseudocode.
-/

namespace Sys2Proof.Machine

/-- The low-order 16 bits of the exact unsigned sum are the sum of bit vectors (R109, D17). -/
theorem vmladduhmLane_eq (x y z : HalfWord) : vmladduhmLane x y z = x * y + z := by
  apply BitVec.eq_of_toNat_eq
  simp [vmladduhmLane]

/-- A vmladduhm lane read as unsigned (R108). -/
theorem toNat_vmladduhmLane (x y z : HalfWord) :
    (vmladduhmLane x y z).toNat = (x.toNat * y.toNat + z.toNat) % 65536 :=
  BitVec.toNat_ofNat ..

/-- A vmladduhm lane read as signed (R109). -/
theorem toInt_vmladduhmLane (x y z : HalfWord) :
    (vmladduhmLane x y z).toInt = Int.bmod (x.toInt * y.toInt + z.toInt) 65536 := by
  simp [vmladduhmLane_eq, BitVec.toInt_add, BitVec.toInt_mul]

/-- vmhaddshs where it can run: one write of its eight lanes, their flags in SAT, pc advanced. -/
theorem exec_vmhaddshs_of_ready (d a b c : VReg) {s : State} (h : Ready s) :
    exec (.vmhaddshs d a b c) s = .next (advancePc (writeSatHW s d fun k =>
      vmhaddshsLane (hw (readVR s a) k) (hw (readVR s b) k) (hw (readVR s c) k))) :=
  complete_of_ready _ h

/-- vmhraddshs where it can run: one write of its eight lanes, their flags in SAT, pc advanced. -/
theorem exec_vmhraddshs_of_ready (d a b c : VReg) {s : State} (h : Ready s) :
    exec (.vmhraddshs d a b c) s = .next (advancePc (writeSatHW s d fun k =>
      vmhraddshsLane (hw (readVR s a) k) (hw (readVR s b) k) (hw (readVR s c) k))) :=
  complete_of_ready _ h

/-- vmladduhm where it can run: one write of its eight lanes, pc advanced. -/
theorem exec_vmladduhm_of_ready (d a b c : VReg) {s : State} (h : Ready s) :
    exec (.vmladduhm d a b c) s = .next (advancePc (writeVR s d (packHW fun k =>
      vmladduhmLane (hw (readVR s a) k) (hw (readVR s b) k) (hw (readVR s c) k)))) :=
  complete_of_ready _ h

/-- A lane of the register that eight saturated lanes were written to. -/
@[simp] theorem hw_readVR_writeSatHW (s : State) (d : VReg) (lane : Fin 8 → HalfWord × Bool)
    (k : Fin 8) : hw (readVR (writeSatHW s d lane) d) k = (lane k).1 := by
  simp [writeSatHW]

/-- SAT after eight saturated lanes were written (10_state.md R24). -/
theorem writeSatHW_sat_eq_true (s : State) (d : VReg) (lane : Fin 8 → HalfWord × Bool) :
    (writeSatHW s d lane).sat = true ↔ s.sat = true ∨ ∃ k, (lane k).2 = true := by
  simp [writeSatHW]

/-- Lanes that raise no flag are written like any register value. -/
theorem writeSatHW_of_no_flag (s : State) (d : VReg) (h : Fin 8 → HalfWord) :
    writeSatHW s d (fun k => (h k, false)) = writeVR s d (packHW h) := by
  have quiet : (anyLane fun _ : Fin 8 => false) = false := by decide
  rw [writeSatHW, quiet, orSat_false]

/-- The statements' `clamp` is the nearest value of the range. -/
theorem clamp_eq_min_max {lo hi : Int} (h : lo ≤ hi) (z : Int) :
    Claims.clamp lo hi z = min (max z lo) hi := by
  unfold Claims.clamp
  split_ifs <;> omega

/-- What an instruction leaves that writes eight lanes, each an exact integer saturated (R10, R24):
the clamped lanes, SAT set if it was or a lane was out of range, and the rest as it was. -/
theorem writeSatHW_satS (s : State) (d : VReg) (temp : Fin 8 → Int) {t : State}
    (ht : t = advancePc (writeSatHW s d fun k => satS 16 (temp k))) :
    (∀ k, (hw (readVR t d) k).toInt = Claims.clamp (-32768) 32767 (temp k)) ∧
      (t.sat = true ↔ s.sat = true ∨ ∃ k, Claims.outside (-32768) 32767 (temp k)) ∧
      Claims.KeepsTheRest d s t := by
  subst ht
  refine ⟨fun k => ?_, ?_, keepsTheRest_writeVR_orSat ..⟩
  · rw [readVR_advancePc, hw_readVR_writeSatHW, satS16_toInt, clamp_eq_min_max (by decide)]
  · rw [advancePc_sat, writeSatHW_sat_eq_true]
    simp only [satS16_flag, Claims.outside]

end Sys2Proof.Machine
end

section
/-!
A VA-form instruction by its match word (30_encoding.md R66).
-/

namespace Sys2Proof.Laws.OpcodeMap

/-- Under the VA mask the pattern selects exactly the words that decode to the VA-form instruction
whose extended opcode the pattern ends in. -/
theorem selectedBy_va {isa : VReg → VReg → VReg → VReg → Instr} {pattern : InstrWord}
    (word : ∀ d a b c, encode (isa d a b c) = encodeVA d a b c (fieldXO6 pattern))
    (opcd : fieldOPCD pattern = 4#6)
    (own : 0x10000000#32 ||| (fieldXO6 pattern).setWidth 32 = pattern) :
    Claims.SelectedBy 0xFC00003F#32 pattern (fun i => ∃ d a b c, i = isa d a b c) := by
  intro w
  constructor
  · intro masked
    have encoded := (word ..).trans (encodeVA_of_masked masked opcd)
    exact ⟨_, encoded ▸ decode_encode _, _, _, _, _, rfl⟩
  · rintro ⟨_, decoded, d, a, b, c, rfl⟩
    rw [← encode_of_decode decoded, word, encodeVA_masked, own]

end Sys2Proof.Laws.OpcodeMap
end

section
/-!
What vmhaddshs, vmhraddshs and vmladduhm leave (40_multiply_add.md R100, R104, R108).
-/

namespace Sys2Proof.Machine

open Laws.OpcodeMap

/-- Settles O1: the lanes are `satS 16` of the exact sums. -/
theorem vmhaddshsMultipliesHighAndAdds : Obligations.VmhaddshsMultipliesHighAndAdds :=
  ⟨selectedBy_va (fun _ _ _ _ => rfl) (by decide) (by decide), fun d a b c s ready =>
    ⟨_, exec_vmhaddshs_of_ready d a b c ready, writeSatHW_satS s d _ rfl⟩⟩

/-- Settles O2: the lanes are `satS 16` of the exact sums of the rounded products. -/
theorem vmhraddshsRoundsTheProduct : Obligations.VmhraddshsRoundsTheProduct :=
  ⟨selectedBy_va (fun _ _ _ _ => rfl) (by decide) (by decide), fun d a b c s ready =>
    ⟨_, exec_vmhraddshs_of_ready d a b c ready, writeSatHW_satS s d _ rfl⟩⟩

/-- Settles O3: the lanes are the low halves of the unsigned sums, and no flag is or-ed. -/
theorem vmladduhmKeepsTheLowHalf : Obligations.VmladduhmKeepsTheLowHalf := by
  refine ⟨selectedBy_va (fun _ _ _ _ => rfl) (by decide) (by decide), fun d a b c s ready => ?_⟩
  refine ⟨_, exec_vmladduhm_of_ready d a b c ready, fun k => ?_, rfl, ?_⟩
  · simp [toNat_vmladduhmLane]
  · simpa using keepsTheRest_writeVR_orSat s d _ false

/-- Settles O33: the same lanes, read as signed. -/
theorem vmladduhmServesSignedIntegers : Obligations.VmladduhmServesSignedIntegers :=
  fun d a b c _ ready =>
    ⟨_, exec_vmladduhm_of_ready d a b c ready, fun k => by simp [toInt_vmladduhmLane]⟩

/-- Rounding adds at most one to a lane: to the floor of the product, hence also after the addition
and the saturation, which keep order. -/
theorem vmhraddshsLane_near_vmhaddshsLane (x y z : HalfWord) :
    (vmhaddshsLane x y z).1.toInt ≤ (vmhraddshsLane x y z).1.toInt ∧
      (vmhraddshsLane x y z).1.toInt ≤ (vmhaddshsLane x y z).1.toInt + 1 := by
  simp only [vmhaddshsLane, vmhraddshsLane, satS16_toInt, asr]
  have floor_le : x.toInt * y.toInt / 2 ^ 15 ≤ (x.toInt * y.toInt + 16384) / 2 ^ 15 := by omega
  have le_floor_succ :
      (x.toInt * y.toInt + 16384) / 2 ^ 15 ≤ x.toInt * y.toInt / 2 ^ 15 + 1 := by omega
  omega

/-- Settles O34: lane by lane. -/
theorem roundingAddsAtMostOne : Obligations.RoundingAddsAtMostOne :=
  fun d a b c _ ready =>
    ⟨_, _, exec_vmhaddshs_of_ready d a b c ready, exec_vmhraddshs_of_ready d a b c ready,
      fun k => by simpa using vmhraddshsLane_near_vmhaddshsLane ..⟩

end Sys2Proof.Machine
end

section
/-!
The bodies of the multiply-add loops (40_multiply_add.md R101, R105, R109), as functions of the
three half words that an iteration reads, against the lanes of the model.
-/

namespace Sys2Proof.Source

open Sys2Proof.Machine

/-- The value the vmhaddshs loop assigns (R100). -/
def vmhaddshsSlice (x y z : HalfWord) : HalfWord × Bool :=
  siToSIsat (bits (x.signExtend 32 * y.signExtend 32) 0 17 + z.signExtend 17) 16

/-- The value the vmhraddshs loop assigns (R104). -/
def vmhraddshsSlice (x y z : HalfWord) : HalfWord × Bool :=
  siToSIsat
    (bits (bits (x.signExtend 32 * y.signExtend 32) 0 18 + (z.signExtend 17 ++ 1#1)) 0 17) 16

/-- The value the vmladduhm loop assigns (R108). -/
def vmladduhmSlice (x y z : HalfWord) : HalfWord × Bool :=
  (bits (x.zeroExtend 32 * y.zeroExtend 32 + z.zeroExtend 32) 16 16, false)

/-- The 17 bits of vmhaddshs hold the exact sum (R101). -/
theorem vmhaddshsSlice_eq (x y z : HalfWord) : vmhaddshsSlice x y z = vmhaddshsLane x y z := by
  have product : (bits (x.signExtend 32 * y.signExtend 32) 0 17).toInt =
      x.toInt * y.toInt / 2 ^ 15 := by
    rw [toInt_bits_leading (n := 17) (j := 15) _ (by decide), toInt_product]
  have addend : (z.signExtend 17).toInt = z.toInt := BitVec.toInt_signExtend_of_le (by decide)
  obtain ⟨low, high⟩ := product_bounds x y
  have z_low := z.le_toInt
  have z_high := z.toInt_lt
  rw [vmhaddshsSlice, siToSIsat_eq_satS _ (by decide),
    toInt_add_of_bounds _ _ (by omega) (by omega), product, addend]
  rfl

/-- The bit appended to the vC lane of vmhraddshs adds half of the weight that is then dropped: the
18-bit sum holds the exact `floor(a*b / 2^14) + 2c + 1` (R105). -/
theorem vmhraddshsSlice_eq (x y z : HalfWord) :
    vmhraddshsSlice x y z = vmhraddshsLane x y z := by
  have product : (bits (x.signExtend 32 * y.signExtend 32) 0 18).toInt =
      x.toInt * y.toInt / 2 ^ 14 := by
    rw [toInt_bits_leading (n := 18) (j := 14) _ (by decide), toInt_product]
  have addend : (z.signExtend 17 ++ 1#1).toInt = 2 * z.toInt + 1 := by
    rw [BitVec.toInt_append, BitVec.toInt_signExtend_of_le (by decide)]
    rfl
  obtain ⟨low, high⟩ := product_bounds x y
  have z_low := z.le_toInt
  have z_high := z.toInt_lt
  have rounded : (x.toInt * y.toInt / 2 ^ 14 + (2 * z.toInt + 1)) / 2 ^ 1 =
      asr (x.toInt * y.toInt + 16384) 15 + z.toInt := by
    rw [asr]
    omega
  rw [vmhraddshsSlice, siToSIsat_eq_satS _ (by decide),
    toInt_bits_leading (n := 17) (j := 1) _ (by decide),
    toInt_add_of_bounds _ _ (by omega) (by omega), product, addend, rounded]
  rfl

/-- The low half of the 32-bit sum of vmladduhm is the 16-bit sum (R109). -/
theorem vmladduhmSlice_eq (x y z : HalfWord) :
    vmladduhmSlice x y z = (vmladduhmLane x y z, false) := by
  have low_half (p : BitVec 32) : bits p 16 16 = p.setWidth 16 :=
    (BitVec.setWidth_eq_extractLsb' (by decide)).symm
  rw [vmladduhmSlice, low_half, vmladduhmLane_eq, BitVec.setWidth_add _ _ (by decide),
    BitVec.setWidth_mul _ _ (by decide)]
  simp

/-- The vmhaddshs loop is one write of eight lanes (R187, R188). -/
theorem vmhaddshs_eq_writeSatHW (d a b c : VReg) (s : State) :
    vmhaddshs d a b c s = writeSatHW s d fun k =>
      vmhaddshsLane (hw (readVR s a) k) (hw (readVR s b) k) (hw (readVR s c) k) := by
  simp only [← vmhaddshsSlice_eq]
  exact doLoop_lanes vmhaddshsSlice d a b c s

/-- The vmhraddshs loop is one write of eight lanes (R187, R188). -/
theorem vmhraddshs_eq_writeSatHW (d a b c : VReg) (s : State) :
    vmhraddshs d a b c s = writeSatHW s d fun k =>
      vmhraddshsLane (hw (readVR s a) k) (hw (readVR s b) k) (hw (readVR s c) k) := by
  simp only [← vmhraddshsSlice_eq]
  exact doLoop_lanes vmhraddshsSlice d a b c s

/-- The vmladduhm loop is one register write (R187). -/
theorem vmladduhm_eq_writeVR (d a b c : VReg) (s : State) :
    vmladduhm d a b c s = writeVR s d (packHW fun k =>
      vmladduhmLane (hw (readVR s a) k) (hw (readVR s b) k) (hw (readVR s c) k)) := by
  rw [← writeSatHW_of_no_flag]
  simp only [← vmladduhmSlice_eq]
  exact doLoop_lanes vmladduhmSlice d a b c s

/-- Settles O9: both are the same write. -/
theorem vmhaddshsRunsAsTheSourceLoop : Obligations.VmhaddshsRunsAsTheSourceLoop :=
  fun d a b c s ready => by rw [exec_vmhaddshs_of_ready d a b c ready, vmhaddshs_eq_writeSatHW]

/-- Settles O10: both are the same write. -/
theorem vmhraddshsRunsAsTheSourceLoop : Obligations.VmhraddshsRunsAsTheSourceLoop :=
  fun d a b c s ready => by rw [exec_vmhraddshs_of_ready d a b c ready, vmhraddshs_eq_writeSatHW]

/-- Settles O11: both are the same write. -/
theorem vmladduhmRunsAsTheSourceLoop : Obligations.VmladduhmRunsAsTheSourceLoop :=
  fun d a b c s ready => by rw [exec_vmladduhm_of_ready d a b c ready, vmladduhm_eq_writeVR]

end Sys2Proof.Source
end

section
/-!
A VX-form instruction by its match word (30_encoding.md R66).
-/

namespace Sys2Proof.Laws.OpcodeMap

/-- Under the VX mask the pattern selects exactly the words that decode to the VX-form instruction
whose extended opcode the pattern ends in. -/
theorem selectedBy_vx {isa : VReg → VReg → VReg → Instr} {pattern : InstrWord}
    (word : ∀ d a b, encode (isa d a b) = encodeVX d a b (fieldXO11 pattern))
    (opcd : fieldOPCD pattern = 4#6)
    (own : 0x10000000#32 ||| (fieldXO11 pattern).setWidth 32 = pattern) :
    Claims.SelectedBy 0xFC0007FF#32 pattern (fun i => ∃ d a b, i = isa d a b) := by
  intro w
  constructor
  · intro masked
    have encoded := (word ..).trans (encodeVX_of_masked masked opcd)
    exact ⟨_, encoded ▸ decode_encode _, _, _, _, rfl⟩
  · rintro ⟨_, decoded, d, a, b, rfl⟩
    rw [← encode_of_decode decoded, word, encodeVX_masked, own]

end Sys2Proof.Laws.OpcodeMap
end

section
/-!
vmulesh (41_multiply_even.md), and the write of four word lanes that it shares with the sums.
-/

namespace Sys2Proof.Machine

/-- A vmulesh lane is the source's 32-bit product of the sign-extended half words (R121). -/
theorem vmuleshLane_eq (x y : HalfWord) :
    vmuleshLane x y = x.signExtend 32 * y.signExtend 32 :=
  BitVec.ofInt_mul ..

/-- A vmulesh lane holds the exact product (R120). -/
@[simp] theorem toInt_vmuleshLane (x y : HalfWord) :
    (vmuleshLane x y).toInt = x.toInt * y.toInt := by
  rw [vmuleshLane_eq, Source.toInt_product]

/-- vmulesh where it can run: one write of its four lanes, pc advanced. -/
theorem exec_vmulesh_of_ready (d a b : VReg) {s : State} (h : Ready s) :
    exec (.vmulesh d a b) s = .next (advancePc (writeVR s d (packW fun k =>
      vmuleshLane (hw (readVR s a) (evenHW k)) (hw (readVR s b) (evenHW k))))) :=
  complete_of_ready _ h

/-- vmsumshs where it can run: one write of its four lanes, their flags in SAT, pc advanced. -/
theorem exec_vmsumshs_of_ready (d a b c : VReg) {s : State} (h : Ready s) :
    exec (.vmsumshs d a b c) s = .next (advancePc (writeSatW s d fun k =>
      vmsumshsLane (hw (readVR s a) (evenHW k)) (hw (readVR s b) (evenHW k))
        (hw (readVR s a) (oddHW k)) (hw (readVR s b) (oddHW k)) (wd (readVR s c) k))) :=
  complete_of_ready _ h

/-- vsum4shs where it can run: one write of its four lanes, their flags in SAT, pc advanced. -/
theorem exec_vsum4shs_of_ready (d a b : VReg) {s : State} (h : Ready s) :
    exec (.vsum4shs d a b) s = .next (advancePc (writeSatW s d fun k =>
      vsum4shsLane (hw (readVR s a) (evenHW k)) (hw (readVR s a) (oddHW k))
        (wd (readVR s b) k))) :=
  complete_of_ready _ h

/-- A lane of the register that four saturated lanes were written to. -/
@[simp] theorem wd_readVR_writeSatW (s : State) (d : VReg) (lane : Fin 4 → Word × Bool)
    (k : Fin 4) : wd (readVR (writeSatW s d lane) d) k = (lane k).1 := by
  simp [writeSatW]

/-- Lanes that raise no flag are written like any register value. -/
theorem writeSatW_of_no_flag (s : State) (d : VReg) (w : Fin 4 → Word) :
    writeSatW s d (fun k => (w k, false)) = writeVR s d (packW w) := by
  have quiet : (anyLane fun _ : Fin 4 => false) = false := by decide
  rw [writeSatW, quiet, orSat_false]

/-- Settles O4: the lanes are the exact products, and no flag is or-ed. -/
theorem vmuleshMultipliesEvenHalfWords : Obligations.VmuleshMultipliesEvenHalfWords := by
  refine ⟨Laws.OpcodeMap.selectedBy_vx (fun _ _ _ => rfl) (by decide) (by decide),
    fun d a b s ready => ?_⟩
  refine ⟨_, exec_vmulesh_of_ready d a b ready, fun k => ?_, rfl, ?_⟩
  · simp
  · simpa using keepsTheRest_writeVR_orSat s d _ false

end Sys2Proof.Machine
end

section
/-!
Each word of the result of vmulesh, vmsumshs and vsum4shs is made of the same word of the sources
(41_multiply_even.md R122, 42_multiply_sum.md R132, 43_sum_across.md R150).
-/

namespace Sys2Proof.Machine

/-- The even-numbered half word is the high half of its word (R13). -/
theorem hw_evenHW (v : V128) (k : Fin 4) : hw v (evenHW k) = (wd v k).extractLsb' 16 16 := by
  rw [wd_eq_append, BitVec.extractLsb'_append_eq_left]

/-- The odd-numbered half word is the low half of its word (R13). -/
theorem hw_oddHW (v : V128) (k : Fin 4) : hw v (oddHW k) = (wd v k).extractLsb' 0 16 := by
  rw [wd_eq_append, BitVec.extractLsb'_append_eq_right]

/-- A word of vmulesh, from the words of its sources in the same place. -/
theorem wd_of_exec_vmulesh {d a b : VReg} {s t : State} (h : exec (.vmulesh d a b) s = .next t)
    (k : Fin 4) : wd (readVR t d) k =
      vmuleshLane ((wd (readVR s a) k).extractLsb' 16 16)
        ((wd (readVR s b) k).extractLsb' 16 16) := by
  obtain ⟨ready, -⟩ := exec_next h
  rw [exec_vmulesh_of_ready d a b ready] at h
  cases h
  simp [hw_evenHW]

/-- A word of vmsumshs, from the words of its sources in the same place. -/
theorem wd_of_exec_vmsumshs {d a b c : VReg} {s t : State}
    (h : exec (.vmsumshs d a b c) s = .next t) (k : Fin 4) : wd (readVR t d) k =
      (vmsumshsLane ((wd (readVR s a) k).extractLsb' 16 16)
        ((wd (readVR s b) k).extractLsb' 16 16) ((wd (readVR s a) k).extractLsb' 0 16)
        ((wd (readVR s b) k).extractLsb' 0 16) (wd (readVR s c) k)).1 := by
  obtain ⟨ready, -⟩ := exec_next h
  rw [exec_vmsumshs_of_ready d a b c ready] at h
  cases h
  simp [hw_evenHW, hw_oddHW]

/-- A word of vsum4shs, from the words of its sources in the same place. -/
theorem wd_of_exec_vsum4shs {d a b : VReg} {s t : State} (h : exec (.vsum4shs d a b) s = .next t)
    (k : Fin 4) : wd (readVR t d) k =
      (vsum4shsLane ((wd (readVR s a) k).extractLsb' 16 16)
        ((wd (readVR s a) k).extractLsb' 0 16) (wd (readVR s b) k)).1 := by
  obtain ⟨ready, -⟩ := exec_next h
  rw [exec_vsum4shs_of_ready d a b ready] at h
  cases h
  simp [hw_evenHW, hw_oddHW]

/-- Settles O36: the word is the same function of source words on which the two states agree. -/
theorem wordLanesAreIndependent : Obligations.WordLanesAreIndependent := by
  rintro i s s' t t' ⟨d, a, b, c, rfl | rfl | rfl⟩ ht ht' k agree
  · have ha := agree a (by simp [Instr.sources])
    have hb := agree b (by simp [Instr.sources])
    rw [Instr.dest, wd_of_exec_vmulesh ht, wd_of_exec_vmulesh ht', ha, hb]
  · have ha := agree a (by simp [Instr.sources])
    have hb := agree b (by simp [Instr.sources])
    have hc := agree c (by simp [Instr.sources])
    rw [Instr.dest, wd_of_exec_vmsumshs ht, wd_of_exec_vmsumshs ht', ha, hb, hc]
  · have ha := agree a (by simp [Instr.sources])
    have hb := agree b (by simp [Instr.sources])
    rw [Instr.dest, wd_of_exec_vsum4shs ht, wd_of_exec_vsum4shs ht', ha, hb]

end Sys2Proof.Machine
end

section
/-!
The source's loop over words (00_scope.md R12) as one write of four lanes, and vmulesh as such a
loop (41_multiply_even.md R120, R121).
-/

namespace Sys2Proof.Source

open Sys2Proof.Machine

/-- Registers that agree on a slice agree on every slice within it. -/
theorem bits_eq_of_bits_eq {m a w : Nat} {x y : BitVec m} (h : bits x a w = bits y a w)
    {j n : Nat} (within : j + n ≤ w) : bits x (a + j) n = bits y (a + j) n := by
  apply BitVec.eq_of_getLsbD_eq
  intro k hk
  have part (z : BitVec m) : (bits z (a + j) n).getLsbD k =
      (bits z a w).getLsbD (m - (a + j) - n - (m - a - w) + k) := by
    have inside : m - (a + j) - n - (m - a - w) + k < w := by omega
    have place : m - a - w + (m - (a + j) - n - (m - a - w) + k) = m - (a + j) - n + k := by omega
    rw [getLsbD_bits, getLsbD_bits, decide_eq_true hk, decide_eq_true inside, place]
  rw [part, part, h]

/-- A loop over words is one write of four lanes and one or of their flags. -/
theorem doLoop_eq_writeSatW {g : State → Nat → Word × Bool} (hg : ReadsOwnSlice g)
    (d : VReg) (s : State) :
    doLoop 127 32 (fun t i => assign t d i (g t i)) s =
      writeSatW s d fun k => g s (32 * k.val) := by
  obtain ⟨v, f, state, lanes, -, flags⟩ := slicesWritten_foldl hg d s (n := 4) (by decide)
  have register : v = packW fun k : Fin 4 => (g s (32 * k.val)).1 :=
    eq_of_wd fun k => by rw [wd_packW, wd_eq_bits, lanes k k.isLt]
  have sat : f = anyLane fun k : Fin 4 => (g s (32 * k.val)).2 := by
    rw [Bool.eq_iff_iff, flags, anyLane_eq_true, Fin.exists_iff]
    simp only [exists_prop]
  rw [writeSatW, ← register, ← sat]
  exact state

/-- R13's even-numbered half word is the first half of the source's slice of 32 bits. -/
theorem hw_evenHW_eq_bits (v : V128) (k : Fin 4) : hw v (evenHW k) = bits v (32 * k.val) 16 := by
  rw [hw_eq_bits, evenHW_val, ← Nat.mul_assoc]

/-- The value the vmulesh loop assigns (R120). -/
def vmuleshSlice (a b : VReg) (t : State) (i : Nat) : Word × Bool :=
  ((bits (readVR t a) i 16).signExtend 32 * (bits (readVR t b) i 16).signExtend 32, false)

/-- An iteration of vmulesh reads the first half of the slice that it writes (R121). -/
theorem readsOwnSlice_vmuleshSlice (a b : VReg) : ReadsOwnSlice (vmuleshSlice a b) := by
  intro s t i h
  have first_half (r : VReg) : bits (readVR t r) i 16 = bits (readVR s r) i 16 :=
    bits_eq_of_bits_eq (h r) (j := 0) (by decide)
  rw [vmuleshSlice, vmuleshSlice, first_half, first_half]

/-- The vmulesh loop is one register write (R187). -/
theorem vmulesh_eq_writeVR (d a b : VReg) (s : State) :
    vmulesh d a b s = writeVR s d (packW fun k =>
      vmuleshLane (hw (readVR s a) (evenHW k)) (hw (readVR s b) (evenHW k))) := by
  rw [← writeSatW_of_no_flag]
  simp only [vmuleshLane_eq, hw_evenHW_eq_bits]
  exact doLoop_eq_writeSatW (readsOwnSlice_vmuleshSlice a b) d s

/-- Settles O12: both are the same write. -/
theorem vmuleshRunsAsTheSourceLoop : Obligations.VmuleshRunsAsTheSourceLoop :=
  fun d a b s ready => by rw [exec_vmulesh_of_ready d a b ready, vmulesh_eq_writeVR]

end Sys2Proof.Source
end

section
/-!
vmsumshs (42_multiply_sum.md R130), and what an instruction leaves that writes four saturated words.
-/

namespace Sys2Proof.Machine

/-- SAT after four saturated lanes were written (10_state.md R24). -/
theorem writeSatW_sat_eq_true (s : State) (d : VReg) (lane : Fin 4 → Word × Bool) :
    (writeSatW s d lane).sat = true ↔ s.sat = true ∨ ∃ k, (lane k).2 = true := by
  simp [writeSatW]

/-- What an instruction leaves that writes four lanes, each an exact integer saturated (R10, R24):
the clamped lanes, SAT set if it was or a lane was out of range, and the rest as it was. -/
theorem writeSatW_satS (s : State) (d : VReg) (temp : Fin 4 → Int) {t : State}
    (ht : t = advancePc (writeSatW s d fun k => satS 32 (temp k))) :
    (∀ k, (wd (readVR t d) k).toInt = Claims.clamp (-2147483648) 2147483647 (temp k)) ∧
      (t.sat = true ↔ s.sat = true ∨ ∃ k, Claims.outside (-2147483648) 2147483647 (temp k)) ∧
      Claims.KeepsTheRest d s t := by
  subst ht
  refine ⟨fun k => ?_, ?_, keepsTheRest_writeVR_orSat ..⟩
  · rw [readVR_advancePc, wd_readVR_writeSatW, satS32_toInt, clamp_eq_min_max (by decide)]
  · rw [advancePc_sat, writeSatW_sat_eq_true]
    simp only [satS32_flag, Claims.outside]

/-- Settles O5: the lanes are `satS 32` of the exact sums. -/
theorem vmsumshsSumsTwoProductsAndAWord : Obligations.VmsumshsSumsTwoProductsAndAWord :=
  ⟨Laws.OpcodeMap.selectedBy_va (fun _ _ _ _ => rfl) (by decide) (by decide),
    fun d a b c s ready =>
      ⟨_, exec_vmsumshs_of_ready d a b c ready, writeSatW_satS s d _ rfl⟩⟩

end Sys2Proof.Machine
end

section
/-!
The two-level loop of vmsumshs (42_multiply_sum.md R130, R131): its 34-bit temporary holds every
partial sum exactly, and an iteration reads the two half words and the word of its own slice.
-/

namespace Sys2Proof.Source

open Sys2Proof.Machine

/-- R13's odd-numbered half word is the second half of the source's slice of 32 bits. -/
theorem hw_oddHW_eq_bits (v : V128) (k : Fin 4) :
    hw v (oddHW k) = bits v (32 * k.val + 16) 16 := by
  rw [hw_eq_bits, oddHW_val, Nat.mul_add, ← Nat.mul_assoc]

/-- The source's product of two half words, extended to the 34 bits of the temporary (R130). -/
def product34 (x y : HalfWord) : BitVec 34 := (x.signExtend 32 * y.signExtend 32).signExtend 34

/-- The extended product is exact (R131). -/
theorem toInt_product34 (x y : HalfWord) : (product34 x y).toInt = x.toInt * y.toInt := by
  rw [product34, BitVec.toInt_signExtend_of_le (by decide), toInt_product]

/-- The 34 bits of the temporary hold both partial sums exactly (R131). -/
theorem toInt_add_product34_add_product34 (x0 y0 x1 y1 : HalfWord) (z : Word) :
    (z.signExtend 34 + product34 x0 y0 + product34 x1 y1).toInt =
      z.toInt + x0.toInt * y0.toInt + x1.toInt * y1.toInt := by
  have addend : (z.signExtend 34).toInt = z.toInt := BitVec.toInt_signExtend_of_le (by decide)
  have product0 := toInt_product34 x0 y0
  have product1 := toInt_product34 x1 y1
  obtain ⟨low0, high0⟩ := product_bounds x0 y0
  obtain ⟨low1, high1⟩ := product_bounds x1 y1
  have z_low := z.le_toInt
  have z_high := z.toInt_lt
  have first_sum : (z.signExtend 34 + product34 x0 y0).toInt = z.toInt + x0.toInt * y0.toInt := by
    rw [toInt_add_of_bounds _ _ (by omega) (by omega), addend, product0]
  rw [toInt_add_of_bounds _ _ (by omega) (by omega), first_sum, product1]

/-- The value the vmsumshs loop assigns, its inner loop of two iterations written out (R130). -/
def vmsumshsSlice (a b c : VReg) (t : State) (i : Nat) : Word × Bool :=
  siToSIsat
    ((bits (readVR t c) i 32).signExtend 34 +
      product34 (bits (readVR t a) i 16) (bits (readVR t b) i 16) +
      product34 (bits (readVR t a) (i + 16) 16) (bits (readVR t b) (i + 16) 16)) 32

/-- The value assigned to word `k` is the model's lane: one saturation of the exact sum (R131). -/
theorem vmsumshsSlice_eq (a b c : VReg) (s : State) (k : Fin 4) :
    vmsumshsSlice a b c s (32 * k.val) =
      vmsumshsLane (hw (readVR s a) (evenHW k)) (hw (readVR s b) (evenHW k))
        (hw (readVR s a) (oddHW k)) (hw (readVR s b) (oddHW k)) (wd (readVR s c) k) := by
  rw [vmsumshsSlice, siToSIsat_eq_satS _ (by decide), toInt_add_product34_add_product34]
  simp only [vmsumshsLane, hw_evenHW_eq_bits, hw_oddHW_eq_bits, wd_eq_bits]

/-- An iteration of vmsumshs reads the slice that it writes, and both halves of it (R132). -/
theorem readsOwnSlice_vmsumshsSlice (a b c : VReg) : ReadsOwnSlice (vmsumshsSlice a b c) := by
  intro s t i h
  have first_half (r : VReg) : bits (readVR t r) i 16 = bits (readVR s r) i 16 :=
    bits_eq_of_bits_eq (h r) (j := 0) (by decide)
  have second_half (r : VReg) : bits (readVR t r) (i + 16) 16 = bits (readVR s r) (i + 16) 16 :=
    bits_eq_of_bits_eq (h r) (by decide)
  simp only [vmsumshsSlice, h, first_half, second_half]

/-- The vmsumshs loop is one write of four lanes (R187, R188). -/
theorem vmsumshs_eq_writeSatW (d a b c : VReg) (s : State) :
    vmsumshs d a b c s = writeSatW s d fun k =>
      vmsumshsLane (hw (readVR s a) (evenHW k)) (hw (readVR s b) (evenHW k))
        (hw (readVR s a) (oddHW k)) (hw (readVR s b) (oddHW k)) (wd (readVR s c) k) := by
  simp only [← vmsumshsSlice_eq]
  exact doLoop_eq_writeSatW (readsOwnSlice_vmsumshsSlice a b c) d s

/-- Settles O13: both are the same write. -/
theorem vmsumshsRunsAsTheSourceLoop : Obligations.VmsumshsRunsAsTheSourceLoop :=
  fun d a b c s ready => by rw [exec_vmsumshs_of_ready d a b c ready, vmsumshs_eq_writeSatW]

end Sys2Proof.Source
end

section
/-!
What vsumsws, vsum2sws and vsum4shs leave (43_sum_across.md R140, R144, R148). A cleared word is
the saturation of the sum 0, so all three write four saturated sums.
-/

namespace Sys2Proof.Machine

open Laws.OpcodeMap

/-- The exact sums of vsumsws before saturation (R140), 0 in the words that are cleared. -/
def vsumswsSums (a b : V128) (k : Fin 4) : Int :=
  if k = 3 then
    (wd b 3).toInt + (wd a 0).toInt + (wd a 1).toInt + (wd a 2).toInt + (wd a 3).toInt
  else 0

/-- The exact sums of vsum2sws before saturation (R144), 0 in the words that are cleared. -/
def vsum2swsSums (a b : V128) (k : Fin 4) : Int :=
  if k = 1 then (wd b 1).toInt + (wd a 0).toInt + (wd a 1).toInt
  else if k = 3 then (wd b 3).toInt + (wd a 2).toInt + (wd a 3).toInt
  else 0

/-- The sum 0 saturates to a cleared word and raises no flag. -/
theorem satS32_zero : satS 32 0 = (0#32, false) := by decide

/-- The sum 0 is in range. -/
theorem not_outside_zero : ¬ Claims.outside (-2147483648) 2147483647 0 := by
  simp [Claims.outside]

/-- Every word of vsumsws is a saturated sum. -/
theorem vsumswsLanes_eq_satS (a b : V128) :
    vsumswsLanes a b = fun k => satS 32 (vsumswsSums a b k) := by
  funext k
  rw [vsumswsLanes, vsumswsSums, apply_ite (satS 32), satS32_zero]

/-- Every word of vsum2sws is a saturated sum. -/
theorem vsum2swsLanes_eq_satS (a b : V128) :
    vsum2swsLanes a b = fun k => satS 32 (vsum2swsSums a b k) := by
  funext k
  rw [vsum2swsLanes, vsum2swsSums, apply_ite (satS 32), apply_ite (satS 32), satS32_zero]

/-- Of the sums of vsumsws only that of word 3 can be out of range. -/
theorem exists_outside_vsumswsSums (a b : V128) :
    (∃ k, Claims.outside (-2147483648) 2147483647 (vsumswsSums a b k)) ↔
      Claims.outside (-2147483648) 2147483647 (vsumswsSums a b 3) := by
  simp [Fin.exists_fin_succ, vsumswsSums, not_outside_zero]

/-- Of the sums of vsum2sws only those of words 1 and 3 can be out of range. -/
theorem exists_outside_vsum2swsSums (a b : V128) :
    (∃ k, Claims.outside (-2147483648) 2147483647 (vsum2swsSums a b k)) ↔
      Claims.outside (-2147483648) 2147483647 (vsum2swsSums a b 1) ∨
        Claims.outside (-2147483648) 2147483647 (vsum2swsSums a b 3) := by
  simp [Fin.exists_fin_succ, vsum2swsSums, not_outside_zero]

/-- vsumsws where it can run: one write of its four lanes, their flags in SAT, pc advanced. -/
theorem exec_vsumsws_of_ready (d a b : VReg) {s : State} (h : Ready s) :
    exec (.vsumsws d a b) s =
      .next (advancePc (writeSatW s d (vsumswsLanes (readVR s a) (readVR s b)))) :=
  complete_of_ready _ h

/-- vsum2sws where it can run: one write of its four lanes, their flags in SAT, pc advanced. -/
theorem exec_vsum2sws_of_ready (d a b : VReg) {s : State} (h : Ready s) :
    exec (.vsum2sws d a b) s =
      .next (advancePc (writeSatW s d (vsum2swsLanes (readVR s a) (readVR s b)))) :=
  complete_of_ready _ h

/-- Settles O6: word 3 is the only word whose sum is not 0. -/
theorem vsumswsSumsAcrossFourWords : Obligations.VsumswsSumsAcrossFourWords := by
  refine ⟨selectedBy_vx (fun _ _ _ => rfl) (by decide) (by decide), fun d a b s ready => ?_⟩
  obtain ⟨words, sat, frame⟩ :=
    writeSatW_satS s d (vsumswsSums (readVR s a) (readVR s b)) rfl
  rw [exists_outside_vsumswsSums] at sat
  rw [← vsumswsLanes_eq_satS] at words sat frame
  exact ⟨_, exec_vsumsws_of_ready d a b ready, words 3, wd_readVR_writeSatW _ _ _ 0,
    wd_readVR_writeSatW _ _ _ 1, wd_readVR_writeSatW _ _ _ 2, sat, frame⟩

/-- Settles O7: words 1 and 3 are the only words whose sums are not 0. -/
theorem vsum2swsSumsAcrossEachHalf : Obligations.Vsum2swsSumsAcrossEachHalf := by
  refine ⟨selectedBy_vx (fun _ _ _ => rfl) (by decide) (by decide), fun d a b s ready => ?_⟩
  obtain ⟨words, sat, frame⟩ :=
    writeSatW_satS s d (vsum2swsSums (readVR s a) (readVR s b)) rfl
  rw [exists_outside_vsum2swsSums] at sat
  rw [← vsum2swsLanes_eq_satS] at words sat frame
  exact ⟨_, exec_vsum2sws_of_ready d a b ready, words 1, words 3, wd_readVR_writeSatW _ _ _ 0,
    wd_readVR_writeSatW _ _ _ 2, sat, frame⟩

/-- Settles O8: the lanes are `satS 32` of the exact sums. -/
theorem vsum4shsSumsAcrossEachWord : Obligations.Vsum4shsSumsAcrossEachWord :=
  ⟨selectedBy_vx (fun _ _ _ => rfl) (by decide) (by decide), fun d a b s ready =>
    ⟨_, exec_vsum4shs_of_ready d a b ready, writeSatW_satS s d _ rfl⟩⟩

end Sys2Proof.Machine
end

section
/-!
The source's loop that adds elements to a temporary (43_sum_across.md R140, R144, R148): a
temporary wide enough for every partial sum ends with the exact sum (R141, R145, R149).
-/

namespace Sys2Proof.Source

open Sys2Proof.Machine

/-- Adding sign-extended elements one by one is exact when the width holds the start value and as
many elements of extreme value. -/
theorem toInt_foldl_add_signExtend {n w : Nat} (extends_to : n ≤ w) (f : Nat → BitVec n)
    (places : List Nat) (start : BitVec w)
    (low : -2 ^ w ≤ start.toInt * 2 - places.length * 2 ^ n)
    (high : start.toInt * 2 + places.length * 2 ^ n < 2 ^ w) :
    (places.foldl (fun temp i => temp + (f i).signExtend w) start).toInt =
      start.toInt + (places.map fun i => (f i).toInt).sum := by
  induction places generalizing start with
  | nil => simp
  | cons i rest ih =>
    have element_low := BitVec.le_two_mul_toInt (x := f i)
    have element_high := BitVec.two_mul_toInt_lt (x := f i)
    have rest_nonneg : (0 : Int) ≤ rest.length * 2 ^ n := by positivity
    rw [List.length_cons, Nat.cast_succ, add_one_mul] at low high
    have addend : ((f i).signExtend w).toInt = (f i).toInt :=
      BitVec.toInt_signExtend_of_le extends_to
    have first_sum : (start + (f i).signExtend w).toInt = start.toInt + (f i).toInt := by
      rw [toInt_add_of_bounds _ _ (by linarith) (by linarith), addend]
    rw [List.foldl_cons, ih _ (by linarith) (by linarith), first_sum, List.map_cons,
      List.sum_cons, add_assoc]

/-- A loop that adds elements to a sign-extended start value is exact when its temporary is wide
enough for all of them. -/
theorem toInt_doLoop_add_signExtend {hi c m n w : Nat} (start_fits : m ≤ w) (element_fits : n ≤ w)
    (wide : 2 ^ m + (hi / c + 1) * 2 ^ n ≤ 2 ^ w) (f : Nat → BitVec n) (start : BitVec m) :
    (doLoop hi c (fun temp i => temp + (f i).signExtend w) (start.signExtend w)).toInt =
      start.toInt + ((List.range (hi / c + 1)).map fun k => (f (c * k)).toInt).sum := by
  have start_exact : (start.signExtend w).toInt = start.toInt :=
    BitVec.toInt_signExtend_of_le start_fits
  have start_low := BitVec.le_two_mul_toInt (x := start)
  have start_high := BitVec.two_mul_toInt_lt (x := start)
  have wide_int : (2 : Int) ^ m + ((hi / c + 1 : Nat) : Int) * 2 ^ n ≤ 2 ^ w := by
    exact_mod_cast wide
  have loop := toInt_foldl_add_signExtend element_fits f
    ((List.range (hi / c + 1)).map (c * ·)) (start.signExtend w)
    (by rw [start_exact, List.length_map, List.length_range]; linarith)
    (by rw [start_exact, List.length_map, List.length_range]; linarith)
  rwa [start_exact, List.map_map] at loop

end Sys2Proof.Source
end

section
/-!
vsumsws as the source writes it (43_sum_across.md R140, R141).
-/

namespace Sys2Proof.Source

open Sys2Proof.Machine

/-- The temporary of vsumsws when its loop ends (R140). -/
def vsumswsTemp (a b : V128) : BitVec 35 :=
  doLoop 127 32 (fun temp i => temp + (bits a i 32).signExtend 35)
    ((bits b 96 32).signExtend 35)

/-- 35 bits hold the sum of five words (R141). -/
theorem toInt_vsumswsTemp (a b : V128) : (vsumswsTemp a b).toInt = vsumswsSums a b 3 := by
  rw [vsumswsTemp, toInt_doLoop_add_signExtend (by decide) (by decide) (by decide)]
  simp [vsumswsSums, wd_eq_bits, List.range_succ, add_assoc]

/-- Word 3 of vsumsws is the source's saturated temporary. -/
theorem vsumswsLanes_three (a b : V128) : vsumswsLanes a b 3 = siToSIsat (vsumswsTemp a b) 32 := by
  rw [siToSIsat_eq_satS _ (by decide), toInt_vsumswsTemp, vsumswsLanes_eq_satS]

/-- The source's 96 zero bits are the three cleared words. -/
theorem packW_vsumswsLanes (a b : V128) :
    packW (fun k => (vsumswsLanes a b k).1) = 0#96 ++ (vsumswsLanes a b 3).1 := by
  have zeros : 0#32 ++ 0#32 ++ 0#32 = 0#96 := by decide
  rw [← zeros]
  rfl

/-- Only word 3 of vsumsws raises a flag. -/
theorem anyLane_vsumswsLanes (a b : V128) :
    (anyLane fun k => (vsumswsLanes a b k).2) = (vsumswsLanes a b 3).2 := by
  rw [Bool.eq_iff_iff]
  simp [Fin.exists_fin_succ, vsumswsLanes]

/-- The single write of vsumsws is one write of four lanes. -/
theorem vsumsws_eq_writeSatW (d a b : VReg) (s : State) :
    vsumsws d a b s = writeSatW s d (vsumswsLanes (readVR s a) (readVR s b)) := by
  rw [writeSatW, packW_vsumswsLanes, anyLane_vsumswsLanes, vsumswsLanes_three]
  rfl

/-- Settles O14: both are the same write. -/
theorem vsumswsRunsAsTheSourceLoop : Obligations.VsumswsRunsAsTheSourceLoop :=
  fun d a b s ready => by rw [exec_vsumsws_of_ready d a b ready, vsumsws_eq_writeSatW]

end Sys2Proof.Source
end

section
/-!
vsum4shs as the source writes it (43_sum_across.md R148, R149): the assignment follows the inner
loop (D18), and an iteration reads the two half words and the word of its own slice.
-/

namespace Sys2Proof.Source

open Sys2Proof.Machine

/-- The value the vsum4shs loop assigns (R148). -/
def vsum4shsSlice (a b : VReg) (t : State) (i : Nat) : Word × Bool :=
  siToSIsat
    (doLoop 31 16 (fun temp j => temp + (bits (readVR t a) (i + j) 16).signExtend 33)
      ((bits (readVR t b) i 32).signExtend 33)) 32

/-- 33 bits hold the sum of a word and two half words (R149). -/
theorem vsum4shsSlice_eq_lane (a b : VReg) (t : State) (i : Nat) :
    vsum4shsSlice a b t i =
      vsum4shsLane (bits (readVR t a) i 16) (bits (readVR t a) (i + 16) 16)
        (bits (readVR t b) i 32) := by
  rw [vsum4shsSlice, siToSIsat_eq_satS _ (by decide),
    toInt_doLoop_add_signExtend (by decide) (by decide) (by decide), vsum4shsLane]
  simp [List.range_succ, add_assoc]

/-- An iteration of vsum4shs reads the slice that it writes, and both halves of it (R150). -/
theorem readsOwnSlice_vsum4shsSlice (a b : VReg) : ReadsOwnSlice (vsum4shsSlice a b) := by
  intro s t i h
  have first_half : bits (readVR t a) i 16 = bits (readVR s a) i 16 :=
    bits_eq_of_bits_eq (h a) (j := 0) (by decide)
  have second_half : bits (readVR t a) (i + 16) 16 = bits (readVR s a) (i + 16) 16 :=
    bits_eq_of_bits_eq (h a) (by decide)
  rw [vsum4shsSlice_eq_lane, vsum4shsSlice_eq_lane, first_half, second_half, h b]

/-- The vsum4shs loop is one write of four lanes (R187, R188). -/
theorem vsum4shs_eq_writeSatW (d a b : VReg) (s : State) :
    vsum4shs d a b s = writeSatW s d fun k =>
      vsum4shsLane (hw (readVR s a) (evenHW k)) (hw (readVR s a) (oddHW k))
        (wd (readVR s b) k) := by
  simp only [hw_evenHW_eq_bits, hw_oddHW_eq_bits, wd_eq_bits, ← vsum4shsSlice_eq_lane]
  exact doLoop_eq_writeSatW (readsOwnSlice_vsum4shsSlice a b) d s

/-- Settles O16: both are the same write. -/
theorem vsum4shsRunsAsTheSourceLoop : Obligations.Vsum4shsRunsAsTheSourceLoop :=
  fun d a b s ready => by rw [exec_vsum4shs_of_ready d a b ready, vsum4shs_eq_writeSatW]

end Sys2Proof.Source
end

section
/-!
The source's loop over doublewords (00_scope.md R12) as one write of the register, and vsum2sws as
such a loop (43_sum_across.md R144, R145).
-/

namespace Sys2Proof.Source

open Sys2Proof.Machine

/-- The upper of two doublewords is the slice from bit 0. -/
theorem bits_append_zero (x y : BitVec 64) : bits (x ++ y) 0 64 = x :=
  BitVec.extractLsb'_append_eq_left

/-- The lower of two doublewords is the slice from bit 64. -/
theorem bits_append_sixtyFour (x y : BitVec 64) : bits (x ++ y) 64 64 = y :=
  BitVec.extractLsb'_append_eq_right

/-- A register is its two doublewords. -/
theorem eq_bits_append_bits (v : V128) : v = bits v 0 64 ++ bits v 64 64 := by
  have whole : v.extractLsb' 64 64 ++ v.extractLsb' 0 64 = v.extractLsb' 0 128 :=
    BitVec.extractLsb'_append_extractLsb'_eq_extractLsb' rfl
  exact (whole.trans BitVec.extractLsb'_eq_self).symm

/-- A loop over doublewords is one write of both and one or of their flags. -/
theorem doLoop_eq_orSat_writeVR {g : State → Nat → BitVec 64 × Bool} (hg : ReadsOwnSlice g)
    (d : VReg) (s : State) :
    doLoop 127 64 (fun t i => assign t d i (g t i)) s =
      orSat (writeVR s d ((g s 0).1 ++ (g s 64).1)) ((g s 0).2 || (g s 64).2) := by
  obtain ⟨v, f, state, slices, -, flags⟩ := slicesWritten_foldl hg d s (n := 2) (by decide)
  have register : v = (g s 0).1 ++ (g s 64).1 := by
    rw [eq_bits_append_bits v]
    exact congrArg₂ (· ++ ·) (slices 0 (by decide)) (slices 1 (by decide))
  have sat : f = ((g s 0).2 || (g s 64).2) := by
    rw [Bool.eq_iff_iff, flags]
    simp [Nat.le_one_iff_eq_zero_or_eq_one, or_and_right, exists_or]
  rw [← register, ← sat]
  exact state

/-- A doubleword that vsum2sws writes, from the elements it is made of (R144): 32 zero bits above
the saturated sum, and the flag. -/
def vsum2swsDouble (x0 x1 z : Word) : BitVec 64 × Bool :=
  let r := satS 32 (z.toInt + x0.toInt + x1.toInt)
  (0#32 ++ r.1, r.2)

/-- The value the vsum2sws loop assigns (R144). -/
def vsum2swsSlice (a b : VReg) (t : State) (i : Nat) : BitVec 64 × Bool :=
  let r := siToSIsat
    (doLoop 63 32 (fun temp j => temp + (bits (readVR t a) (i + j) 32).signExtend 34)
      ((bits (readVR t b) (i + 32) 32).signExtend 34)) 32
  (0#32 ++ r.1, r.2)

/-- 34 bits hold the sum of three words (R145). -/
theorem vsum2swsSlice_eq_double (a b : VReg) (t : State) (i : Nat) :
    vsum2swsSlice a b t i =
      vsum2swsDouble (bits (readVR t a) i 32) (bits (readVR t a) (i + 32) 32)
        (bits (readVR t b) (i + 32) 32) := by
  rw [vsum2swsSlice, siToSIsat_eq_satS _ (by decide),
    toInt_doLoop_add_signExtend (by decide) (by decide) (by decide), vsum2swsDouble]
  simp [List.range_succ, add_assoc]

/-- An iteration of vsum2sws depends only on its own doubleword of vA and of vB (R145). -/
theorem vsum2swsSlice_congr {a b : VReg} {s t : State} {i : Nat}
    (agree_a : bits (readVR t a) i 64 = bits (readVR s a) i 64)
    (agree_b : bits (readVR t b) i 64 = bits (readVR s b) i 64) :
    vsum2swsSlice a b t i = vsum2swsSlice a b s i := by
  have first_word : bits (readVR t a) i 32 = bits (readVR s a) i 32 :=
    bits_eq_of_bits_eq agree_a (j := 0) (by decide)
  have second_word : bits (readVR t a) (i + 32) 32 = bits (readVR s a) (i + 32) 32 :=
    bits_eq_of_bits_eq agree_a (by decide)
  have addend : bits (readVR t b) (i + 32) 32 = bits (readVR s b) (i + 32) 32 :=
    bits_eq_of_bits_eq agree_b (by decide)
  rw [vsum2swsSlice_eq_double, vsum2swsSlice_eq_double, first_word, second_word, addend]

/-- The vsum2sws loop is one write of two doublewords (R187, R188). -/
theorem vsum2sws_eq_orSat_writeVR (d a b : VReg) (s : State) :
    vsum2sws d a b s =
      orSat (writeVR s d ((vsum2swsSlice a b s 0).1 ++ (vsum2swsSlice a b s 64).1))
        ((vsum2swsSlice a b s 0).2 || (vsum2swsSlice a b s 64).2) :=
  doLoop_eq_orSat_writeVR (g := vsum2swsSlice a b)
    (fun _ _ _ h => vsum2swsSlice_congr (h a) (h b)) d s

/-- The doubleword at bit 0 holds words 0 and 1. -/
theorem vsum2swsSlice_zero (a b : VReg) (s : State) :
    vsum2swsSlice a b s 0 =
      (0#32 ++ (vsum2swsLanes (readVR s a) (readVR s b) 1).1,
        (vsum2swsLanes (readVR s a) (readVR s b) 1).2) := by
  rw [vsum2swsSlice_eq_double]
  simp [vsum2swsDouble, vsum2swsLanes, wd_eq_bits]

/-- The doubleword at bit 64 holds words 2 and 3. -/
theorem vsum2swsSlice_sixtyFour (a b : VReg) (s : State) :
    vsum2swsSlice a b s 64 =
      (0#32 ++ (vsum2swsLanes (readVR s a) (readVR s b) 3).1,
        (vsum2swsLanes (readVR s a) (readVR s b) 3).2) := by
  rw [vsum2swsSlice_eq_double]
  simp [vsum2swsDouble, vsum2swsLanes, wd_eq_bits]

/-- The source's two doublewords, each with its 32 zero bits, are the four words. -/
theorem packW_vsum2swsLanes (a b : V128) :
    packW (fun k => (vsum2swsLanes a b k).1) =
      (0#32 ++ (vsum2swsLanes a b 1).1) ++ (0#32 ++ (vsum2swsLanes a b 3).1) :=
  BitVec.append_assoc (x₁ := 0#32 ++ (vsum2swsLanes a b 1).1) (x₂ := 0#32)

/-- Only words 1 and 3 of vsum2sws raise a flag. -/
theorem anyLane_vsum2swsLanes (a b : V128) :
    (anyLane fun k => (vsum2swsLanes a b k).2) =
      ((vsum2swsLanes a b 1).2 || (vsum2swsLanes a b 3).2) := by
  rw [Bool.eq_iff_iff]
  simp [Fin.exists_fin_succ, vsum2swsLanes]

/-- The vsum2sws loop is one write of four lanes. -/
theorem vsum2sws_eq_writeSatW (d a b : VReg) (s : State) :
    vsum2sws d a b s = writeSatW s d (vsum2swsLanes (readVR s a) (readVR s b)) := by
  rw [vsum2sws_eq_orSat_writeVR, vsum2swsSlice_zero, vsum2swsSlice_sixtyFour, writeSatW,
    packW_vsum2swsLanes, anyLane_vsum2swsLanes]

/-- Settles O15: both are the same write. -/
theorem vsum2swsRunsAsTheSourceLoop : Obligations.Vsum2swsRunsAsTheSourceLoop :=
  fun d a b s ready => by rw [exec_vsum2sws_of_ready d a b ready, vsum2sws_eq_writeSatW]

/-- A doubleword of vsum2sws is what the iteration at its first bit assigns. -/
theorem bits_of_exec_vsum2sws {d a b : VReg} {s t : State}
    (h : exec (.vsum2sws d a b) s = .next t) {i : Nat} (start : i = 0 ∨ i = 64) :
    bits (readVR t d) i 64 = (vsum2swsSlice a b s i).1 := by
  obtain ⟨ready, -⟩ := exec_next h
  rw [vsum2swsRunsAsTheSourceLoop d a b s ready, vsum2sws_eq_orSat_writeVR] at h
  cases h
  rw [readVR_advancePc, readVR_orSat, readVR_writeVR_same]
  obtain rfl | rfl := start
  · exact bits_append_zero ..
  · exact bits_append_sixtyFour ..

/-- Settles O35: the doubleword is assigned by one iteration, which reads no other. -/
theorem vsum2swsHalvesAreIndependent : Obligations.Vsum2swsHalvesAreIndependent := by
  intro d a b s s' t t' ht ht' i start agree_a agree_b
  rw [bits_of_exec_vsum2sws ht start, bits_of_exec_vsum2sws ht' start,
    vsum2swsSlice_congr agree_a agree_b]

end Sys2Proof.Source
end

section
/-!
How an instruction ends (60_exceptions.md R160, R161): each of its three ends has its own condition
on the state, and no end is a fault.
-/

namespace Sys2Proof.Machine

/-- Everything `exec` can answer, the conditions being those of `complete_cases`. -/
theorem exec_cases (i : Instr) (s : State) :
    (s.launch.vecAvailable = false ∧ exec i s = .refused .vecUnavailable) ∨
    (s.launch.vecAvailable = true ∧ 2 ^ s.launch.pcBits ≤ s.pc + 4 ∧
      exec i s = .refused .pcOverflow) ∨
    (Ready s ∧ ∃ t, exec i s = .next t) := by
  obtain ⟨v, f, -, e⟩ := exec_eq_complete i s
  rw [e]
  exact (complete_cases s _).imp_right (.imp_right (.imp_right fun h => ⟨_, h⟩))

/-- No instruction raises an exception (R160). -/
theorem exec_ne_fault (i : Instr) (s : State) (f : Fault) : exec i s ≠ .fault f := by
  obtain ⟨-, e⟩ | ⟨-, -, e⟩ | ⟨-, t, e⟩ := exec_cases i s <;> rw [e] <;> nofun

/-- An instruction completes exactly where it can run (R26, R162). -/
theorem ready_iff_exec_next (i : Instr) (s : State) : Ready s ↔ ∃ t, exec i s = .next t := by
  constructor
  · intro ready
    obtain ⟨v, f, -, e⟩ := exec_eq_complete i s
    exact ⟨_, e.trans (complete_of_ready _ ready)⟩
  · rintro ⟨t, h⟩
    exact (exec_next h).1

/-- The two refusals of an instruction, each with its condition (R26, R162): the conditions of the
three ends exclude one another, so each condition also forces its end. -/
theorem exec_refused_iff (i : Instr) (s : State) (r : Refusal) :
    exec i s = .refused r ↔
      (r = .vecUnavailable ∧ s.launch.vecAvailable = false) ∨
      (r = .pcOverflow ∧ s.launch.vecAvailable = true ∧ 2 ^ s.launch.pcBits ≤ s.pc + 4) := by
  obtain ⟨unavailable, e⟩ | ⟨available, overflow, e⟩ | ⟨⟨available, fits⟩, t, e⟩ := exec_cases i s
  · simp [e, unavailable, eq_comm]
  · simp [e, available, overflow, eq_comm]
  · simp [e, available, Nat.not_le.mpr fits]

/-- Settles O28: no fault, completion exactly where the instruction can run, and the two refusals. -/
theorem instructionsRaiseNothing : Obligations.InstructionsRaiseNothing :=
  fun i s => ⟨exec_ne_fault i s, ready_iff_exec_next i s, exec_refused_iff i s⟩

end Sys2Proof.Machine
end

section
/-!
The step, check by check (60_exceptions.md R165, 70_reset_and_hazards.md R185): one equation for
each check, and everything a step can answer.
-/

namespace Sys2Proof.Machine

/-- Four bytes of text at an address of the domain are fetched as one word (20_memory.md R43). -/
theorem fetch_of_bytes {l : Launch} {a : Nat} {b0 b1 b2 b3 : Byte} (aligned : a % 4 = 0)
    (fits : a < 2 ^ l.pcBits) (h0 : Memory.read l.text a = some b0)
    (h1 : Memory.read l.text (a + 1) = some b1) (h2 : Memory.read l.text (a + 2) = some b2)
    (h3 : Memory.read l.text (a + 3) = some b3) :
    fetch l a = some (wordOfBytes l.fetchBigEndian b0 b1 b2 b3) := by
  simp [fetch, aligned, fits, h0, h1, h2, h3]

/-- The first check: pc is a multiple of 4 (20_memory.md R44). -/
theorem step_of_misaligned {s : State} (misaligned : s.pc % 4 ≠ 0) :
    step s = .refused .misalignedPc := by
  simp [step, misaligned]

/-- The second check: the run goes on (R190). -/
theorem step_of_over {s : State} (aligned : s.pc % 4 = 0) (at_end : s.pc = s.launch.endAddr) :
    step s = .fault .runOver := by
  rw [step, if_neg (not_not.mpr aligned), if_pos at_end]

/-- The third check: there is text at pc (20_memory.md R42). -/
theorem step_of_no_text {s : State} (aligned : s.pc % 4 = 0) (goes_on : s.pc ≠ s.launch.endAddr)
    (no_text : fetch s.launch s.pc = none) : step s = .refused .fetchOutsideText := by
  simp [step, aligned, goes_on, no_text]

/-- The fourth check: the word is one of the eight (30_encoding.md R72). -/
theorem step_of_not_in_scope {s : State} {w : InstrWord} (aligned : s.pc % 4 = 0)
    (goes_on : s.pc ≠ s.launch.endAddr) (fetched : fetch s.launch s.pc = some w)
    (undecoded : ∀ i, decode w ≠ .ok i) : step s = .refused (.notInScope w) := by
  have rejected := (decode_eq_notInScope_iff w).mpr (not_exists.mpr undecoded)
  simp [step, aligned, goes_on, fetched, rejected]

/-- Past its checks a step is the instruction (R185). -/
theorem step_of_decoded {s : State} {w : InstrWord} {i : Instr} (aligned : s.pc % 4 = 0)
    (goes_on : s.pc ≠ s.launch.endAddr) (fetched : fetch s.launch s.pc = some w)
    (decoded : decode w = .ok i) : step s = exec i s := by
  simp [step, aligned, goes_on, fetched, decoded]

/-- Everything a step can answer, in the order of its checks. -/
theorem step_cases (s : State) :
    (s.pc % 4 ≠ 0 ∧ step s = .refused .misalignedPc) ∨
    (s.pc = s.launch.endAddr ∧ step s = .fault .runOver) ∨
    (fetch s.launch s.pc = none ∧ step s = .refused .fetchOutsideText) ∨
    (∃ w, fetch s.launch s.pc = some w ∧ (∀ i, decode w ≠ .ok i) ∧
      step s = .refused (.notInScope w)) ∨
    (∃ i, step s = exec i s) := by
  by_cases aligned : s.pc % 4 = 0
  swap
  · exact .inl ⟨aligned, step_of_misaligned aligned⟩
  by_cases at_end : s.pc = s.launch.endAddr
  · exact .inr (.inl ⟨at_end, step_of_over aligned at_end⟩)
  cases fetched : fetch s.launch s.pc with
  | none => exact .inr (.inr (.inl ⟨rfl, step_of_no_text aligned at_end fetched⟩))
  | some w =>
    by_cases decodes : ∃ i, decode w = .ok i
    · obtain ⟨i, decoded⟩ := decodes
      exact .inr (.inr (.inr (.inr ⟨i, step_of_decoded aligned at_end fetched decoded⟩)))
    · have undecoded := not_exists.mp decodes
      exact .inr (.inr (.inr (.inl
        ⟨w, rfl, undecoded, step_of_not_in_scope aligned at_end fetched undecoded⟩)))

/-- The one fault of a step is the end of the run (70_reset_and_hazards.md R190). -/
theorem pc_eq_endAddr_of_step_fault {s : State} {f : Fault} (h : step s = .fault f) :
    s.pc = s.launch.endAddr := by
  obtain ⟨-, e⟩ | ⟨at_end, -⟩ | ⟨-, e⟩ | ⟨w, -, -, e⟩ | ⟨i, e⟩ := step_cases s
  · rw [e] at h; cases h
  · exact at_end
  · rw [e] at h; cases h
  · rw [e] at h; cases h
  · exact absurd (e ▸ h) (exec_ne_fault i s f)

/-- What every step that answers a next state does (10_state.md R24, R26; 20_memory.md R51): it
starts where an instruction can run, advances pc by 4, and keeps the launch and a SAT that is set. -/
theorem step_next_frame {s t : State} (h : step s = .next t) :
    Ready s ∧ t.pc = s.pc + 4 ∧ t.launch = s.launch ∧ (s.sat = true → t.sat = true) := by
  obtain ⟨-, -, w, i, -, -, executed⟩ := step_next h
  obtain ⟨⟨-, launch, -, pc⟩, -, sat⟩ := instructionsWriteOnlyVdAndSat i s t executed
  exact ⟨(exec_next executed).1, pc, launch, sat⟩

theorem step_launch {s t : State} (h : step s = .next t) : t.launch = s.launch :=
  (step_next_frame h).2.2.1

theorem exec_launch {i : Instr} {s t : State} (h : exec i s = .next t) : t.launch = s.launch := by
  obtain ⟨-, v, f, -, rfl⟩ := exec_next h
  simp

end Sys2Proof.Machine
end

section
/-!
The invariant of the machine, its launch, and what a step checks (20_memory.md R42, R43, R44;
60_exceptions.md R161, R162, R165; 92_eei_decisions.md D1 to D6, D8, D20).
-/

namespace Sys2Proof.Machine

/-- Settles O42: the launch is kept, and `pc + 4` is aligned and fits. -/
theorem stepKeepsTheInvariant : Obligations.StepKeepsTheInvariant := by
  intro s t inv h
  obtain ⟨launch_wf, pc_aligned, -⟩ := inv
  obtain ⟨⟨-, next_fits⟩, pc, launch, -⟩ := step_next_frame h
  exact ⟨launch ▸ launch_wf, by omega, by rw [pc, launch]; exact next_fits⟩

/-- Settles O43: it is part of the frame of a step. -/
theorem stepKeepsTheLaunch : Obligations.StepKeepsTheLaunch :=
  fun _ _ => step_launch

/-- Settles O23: a fetch reads the launch alone, which no step changes. -/
theorem textIsFetchedOnlyInItsDomain : Obligations.TextIsFetchedOnlyInItsDomain := by
  refine ⟨fun _ _ _ => fetch_domain, fun s aligned no_text goes_on =>
    step_of_no_text aligned goes_on no_text, fun s t h => ?_⟩
  rw [step_launch h]
  exact ⟨rfl, fun _ => rfl⟩

/-- Settles O25: the equations of the checks; after decoding, the three ends of an instruction. -/
theorem stepChecksInOrder : Obligations.StepChecksInOrder := by
  refine fun s => ⟨step_of_misaligned, step_of_over, fun aligned goes_on =>
    ⟨step_of_no_text aligned goes_on, fun w fetched =>
      ⟨step_of_not_in_scope aligned goes_on fetched, fun i decoded => ?_⟩⟩⟩
  rw [step_of_decoded aligned goes_on fetched decoded]
  refine ⟨fun unavailable => ?_, fun available overflow => ?_, fun ready => ?_⟩
  · exact (exec_refused_iff i s _).mpr (.inl ⟨rfl, unavailable⟩)
  · exact (exec_refused_iff i s _).mpr (.inr ⟨rfl, available, overflow⟩)
  · obtain ⟨t, executed⟩ := (ready_iff_exec_next i s).mp ready
    obtain ⟨⟨-, -, -, pc⟩, -⟩ := instructionsWriteOnlyVdAndSat i s t executed
    exact ⟨t, executed, executed, pc⟩

/-- Settles O26: each refusal of a step is one check's, and an instruction has two more. -/
theorem refusalReasonsAreClosed : Obligations.RefusalReasonsAreClosed := by
  intro s r h
  obtain ⟨misaligned, e⟩ | ⟨-, e⟩ | ⟨no_text, e⟩ | ⟨w, fetched, undecoded, e⟩ | ⟨i, e⟩ :=
    step_cases s <;> rw [e] at h
  · cases h
    exact .inl ⟨rfl, misaligned⟩
  · cases h
  · cases h
    exact .inr (.inl ⟨rfl, no_text⟩)
  · cases h
    exact .inr (.inr (.inr (.inl ⟨w, rfl, fetched, undecoded⟩)))
  · obtain unavailable | ⟨reason, -, overflow⟩ := (exec_refused_iff i s r).mp h
    · exact .inr (.inr (.inl unavailable))
    · exact .inr (.inr (.inr (.inr ⟨reason, overflow⟩)))

/-- Settles O27: the frames of a step and of an instruction. -/
theorem pcStaysAligned : Obligations.PcStaysAligned := by
  refine ⟨fun s t aligned h => ?_, fun l vr f misaligned => step_of_misaligned misaligned,
    fun i s t h a => by rw [textByte, exec_launch h, textByte]⟩
  obtain ⟨-, pc, -, -⟩ := step_next_frame h
  exact ⟨pc, by omega⟩

/-- Settles O29: the refusals of an instruction, and the launch that no step changes. -/
theorem vecAvailableGatesEveryInstruction : Obligations.VecAvailableGatesEveryInstruction := by
  refine ⟨fun i s => ?_, rfl, fun s t h => by rw [step_launch h]⟩
  rw [exec_refused_iff]
  simp

/-- Settles O32: the second instruction can run, and its result is fixed by its sources. -/
theorem secondInstructionSeesTheFirst : Obligations.SecondInstructionSeesTheFirst := by
  intro i j s t first room
  obtain ⟨⟨kept_first, launch, -, pc_first⟩, -⟩ := instructionsWriteOnlyVdAndSat i s t first
  have ready : Ready t := ⟨launch ▸ (exec_next first).1.1, room⟩
  obtain ⟨u, second⟩ := (ready_iff_exec_next j t).mp ready
  obtain ⟨⟨kept_second, -, -, pc_second⟩, -, sat⟩ := instructionsWriteOnlyVdAndSat j t u second
  refine ⟨u, second, sat, by omega, ?_, kept_second i.dest, ?_⟩
  · intro r not_first not_second
    rw [kept_second r not_second, kept_first r not_first]
  · intro s' ready' agree
    obtain ⟨u', second'⟩ := (ready_iff_exec_next j s').mp ready'
    exact ⟨u', second', (resultsDependOnSourcesAlone j s' t u' u agree second' second).1⟩

/-- Settles O22: the fetched word is `wordOfBytes`, and the order is part of the launch. -/
theorem fetchAssemblesFourBytes : Obligations.FetchAssemblesFourBytes :=
  ⟨fun _ _ _ _ _ _ aligned fits h0 h1 h2 h3 => fetch_of_bytes aligned fits h0 h1 h2 h3, rfl,
    fun _ _ _ h => by rw [exec_launch h], fun _ _ h => by rw [step_launch h]⟩

/-- Settles O24: the four bytes are the fetched word. -/
theorem stepRunsTheDecodedInstruction : Obligations.StepRunsTheDecodedInstruction :=
  fun _ _ _ _ _ _ aligned goes_on fits h0 h1 h2 h3 decoded _ =>
    step_of_decoded aligned goes_on (fetch_of_bytes aligned fits h0 h1 h2 h3) decoded

end Sys2Proof.Machine
end

section
/-!
Runs (70_reset_and_hazards.md R184, R190): how far pc has come after `k` steps bounds every run,
and where nothing refuses a step the run comes to `END`.
-/

namespace Sys2Proof.Machine

/-- A run of one step more, taken apart at its first step. -/
theorem run_succ_eq_next_iff {k : Nat} {s t : State} :
    run (k + 1) s = .next t ↔ ∃ u, step s = .next u ∧ run k u = .next t := by
  cases h : step s <;> simp [run, h]

/-- A run of one step more that is over: at its first step, or after it. -/
theorem run_succ_eq_fault_iff {k : Nat} {s : State} {f : Fault} :
    run (k + 1) s = .fault f ↔ step s = .fault f ∨ ∃ u, step s = .next u ∧ run k u = .fault f := by
  cases h : step s <;> simp [run, h]

/-- After `k` steps pc has advanced by `4k`, the launch is as before, and pc fits if a step was
taken. -/
theorem run_next {k : Nat} {s t : State} (h : run k s = .next t) :
    t.pc = s.pc + 4 * k ∧ t.launch = s.launch ∧ (0 < k → t.pc < 2 ^ s.launch.pcBits) := by
  induction k generalizing s with
  | zero =>
    cases h
    exact ⟨rfl, rfl, nofun⟩
  | succ k ih =>
    obtain ⟨u, first, rest⟩ := run_succ_eq_next_iff.mp h
    obtain ⟨⟨-, first_fits⟩, first_pc, first_launch, -⟩ := step_next_frame first
    obtain ⟨pc, launch, fits⟩ := ih rest
    rw [first_launch] at launch fits
    refine ⟨by omega, launch, fun _ => ?_⟩
    obtain rfl | more := Nat.eq_zero_or_pos k
    · omega
    · exact fits more

/-- A run that is over began at or below `END`: pc only rises. -/
theorem pc_le_endAddr_of_run_fault {k : Nat} {s : State} {f : Fault} (h : run k s = .fault f) :
    s.pc ≤ s.launch.endAddr := by
  induction k generalizing s with
  | zero => cases h
  | succ k ih =>
    obtain at_end | ⟨u, first, rest⟩ := run_succ_eq_fault_iff.mp h
    · exact (pc_eq_endAddr_of_step_fault at_end).le
    · obtain ⟨-, pc, launch, -⟩ := step_next_frame first
      have rest_le := ih rest
      rw [launch] at rest_le
      omega

/-- Settles O44: by induction on the number of steps. -/
theorem satIsStickyOverRuns : Obligations.SatIsStickyOverRuns := by
  intro n
  induction n with
  | zero =>
    intro s t sat h
    cases h
    exact sat
  | succ n ih =>
    intro s t sat h
    obtain ⟨u, first, rest⟩ := run_succ_eq_next_iff.mp h
    obtain ⟨-, -, -, sticky⟩ := step_next_frame first
    exact ih u t (sticky sat) rest

/-- Settles O47: after so many steps pc would not fit. -/
theorem everyRunEnds : Obligations.EveryRunEnds := by
  intro s
  refine ⟨_, le_rfl, ?_⟩
  cases h : run (2 ^ s.launch.pcBits / 4 + 1) s with
  | next t =>
    obtain ⟨pc, -, fits⟩ := run_next h
    have := fits (Nat.succ_pos _)
    omega
  | fault f =>
    cases f
    exact .inr rfl
  | refused r => exact .inl ⟨r, rfl⟩

/-- Settles O46: the run ends, and it is not over. -/
theorem runsPastEndAreRefused : Obligations.RunsPastEndAreRefused := by
  intro s past
  have never_over : ∀ n f, run n s ≠ .fault f :=
    fun _ _ h => absurd (pc_le_endAddr_of_run_fault h) (Nat.not_le.mpr past)
  obtain ⟨n, -, refused | ended⟩ := everyRunEnds s
  · exact ⟨⟨n, refused⟩, never_over⟩
  · exact absurd ended (never_over n _)

/-- On straight-line code before `END` the next step is taken. -/
theorem exists_step_of_straight_line {s : State} (available : s.launch.vecAvailable = true)
    (pc_aligned : s.pc % 4 = 0) (end_aligned : s.launch.endAddr % 4 = 0)
    (end_fits : s.launch.endAddr < 2 ^ s.launch.pcBits) (before_end : s.pc < s.launch.endAddr)
    (word : ∃ w i, fetch s.launch s.pc = some w ∧ decode w = .ok i) : ∃ t, step s = .next t := by
  obtain ⟨w, i, fetched, decoded⟩ := word
  have ready : Ready s := ⟨available, by omega⟩
  rw [step_of_decoded pc_aligned before_end.ne fetched decoded]
  exact (ready_iff_exec_next i s).mp ready

/-- Straight-line code runs as many steps as fit before `END`. -/
theorem exists_run_of_straight_line {s : State} (available : s.launch.vecAvailable = true)
    (pc_aligned : s.pc % 4 = 0) (end_aligned : s.launch.endAddr % 4 = 0)
    (end_fits : s.launch.endAddr < 2 ^ s.launch.pcBits)
    (words : ∀ a, a % 4 = 0 → s.pc ≤ a → a < s.launch.endAddr →
      ∃ w i, fetch s.launch a = some w ∧ decode w = .ok i)
    {k : Nat} (before_end : s.pc + 4 * k ≤ s.launch.endAddr) : ∃ t, run k s = .next t := by
  induction k generalizing s with
  | zero => exact ⟨s, rfl⟩
  | succ k ih =>
    have here : s.pc < s.launch.endAddr := by omega
    obtain ⟨u, first⟩ := exists_step_of_straight_line available pc_aligned end_aligned end_fits
      here (words s.pc pc_aligned le_rfl here)
    obtain ⟨-, pc, launch, -⟩ := step_next_frame first
    rw [run_succ_next first]
    rw [← launch] at available end_aligned end_fits words before_end
    exact ih available (by omega) end_aligned end_fits
      (fun a aligned from_pc => words a aligned (by omega)) (by omega)

/-- Settles O45: the steps before `END` are taken, and the last of them comes to `END`. -/
theorem straightLineRunsReachEnd : Obligations.StraightLineRunsReachEnd := by
  intro s available pc_aligned end_aligned pc_le end_fits words
  have runs : ∀ k, k ≤ (s.launch.endAddr - s.pc) / 4 →
      ∃ t, run k s = .next t ∧ t.pc = s.pc + 4 * k ∧ t.launch = s.launch := by
    intro k bound
    obtain ⟨t, h⟩ := exists_run_of_straight_line available pc_aligned end_aligned end_fits words
      (k := k) (by omega)
    obtain ⟨pc, launch, -⟩ := run_next h
    exact ⟨t, h, pc, launch⟩
  obtain ⟨t, h, pc, launch⟩ := runs _ le_rfl
  have aligned : t.pc % 4 = 0 := by omega
  have at_end : t.pc = t.launch.endAddr := by rw [launch]; omega
  exact ⟨runs, t, h, ⟨aligned, at_end⟩, step_of_over aligned at_end⟩

end Sys2Proof.Machine
end

section
/-!
The worked words, the registers and the launch (30_encoding.md section 7; 10_state.md R20, R21,
R29; 92_eei_decisions.md D9, D19).
-/

namespace Sys2Proof.Machine

/-- Settles O21: the decoder run on each word. -/
theorem workedEncodingsDecode : Obligations.WorkedEncodingsDecode :=
  ⟨rfl, rfl, rfl, rfl, rfl, rfl, rfl, rfl, rfl⟩

/-- Settles O38: the read and write laws of the registers, and the frame of a register write. -/
theorem registersAreDistinctAndOrdinary : Obligations.RegistersAreDistinctAndOrdinary := by
  intro s r v
  have frame := keepsTheRest_writeVR_orSat s r v false
  rw [orSat_false] at frame
  exact ⟨readVR_writeVR_same s r v, frame, writeVR_sat s r v, fun f => readVR_orSat s f r,
    readVR_advancePc s r⟩

/-- Settles O39: `State.ofLaunch` is that state. -/
theorem launchStartsAtEntry : Obligations.LaunchStartsAtEntry :=
  ⟨fun l vr f => ⟨State.ofLaunch l vr f, rfl, rfl, rfl, rfl, rfl⟩, rfl⟩

/-- Every register of the reset state holds the value that the model chose (log entry 5). -/
theorem readVR_reset (r : VReg) : readVR State.reset r = Config.resetVR := by
  simp [readVR, State.reset]

/-- Settles O40: field by field. -/
theorem resetHoldsTheLoggedChoices : Obligations.ResetHoldsTheLoggedChoices :=
  ⟨readVR_reset, rfl, rfl, rfl, rfl, rfl, rfl, fun _ => rfl⟩

/-- Settles O41: the launch of the reset state passes the check, and `ENTRY` is 0. -/
theorem resetMeetsTheInvariant : Obligations.ResetMeetsTheInvariant where
  launch_wf := (Launch.check_eq_true _).mp (by decide)
  pc_aligned := by decide
  pc_fits := by decide

end Sys2Proof.Machine
end
